-- ==== Sys2Proof/Word.lean ====
section
/-! DEFINITION. The machine word and the widths of the instruction fields (00_scope.md R9, R12; 30_encoding.md R82 to R89). -/

namespace Sys2Proof

/-- A register, a memory cell and an instruction word: 32 bits (R9 `XLEN`, R12). -/
abbrev Word := BitVec 32

/-- A register number: a 5-bit field, so an index out of range cannot be written (R20, R84 to R86). -/
abbrev Reg := BitVec 5

/-- The immediate of format `I`, delivered unsigned (R88). -/
abbrev Imm16 := BitVec 16

/-- The target-index of format `J` (R89). -/
abbrev Target26 := BitVec 26

end Sys2Proof
end

