-- ==== Sys2Proof/Syntax.lean ====
section
/-! DEFINITION. The decoder's output value (40_decoder.md R122) and the instructions the engine dispatches on: one
constructor of `Instr` per row of spec/opcode_table.json. -/

namespace Sys2Proof

/-- The four formats (30_encoding.md R81). -/
inductive Format where
  | r | i | j | syscall
  deriving DecidableEq, Repr

/-- The sixteen mnemonic values: the fifteen names and `unknown` (R95, 90_conflicts.md C3). -/
inductive Mnemonic where
  | add | sub | and | or | slt | syscall
  | addiu | andi | ori | lui | beq | bne | lw | sw | j
  | unknown
  deriving DecidableEq, Repr

/-- The decoder's output: the tagged union of R122, each format with its own fields and no others. -/
inductive Instruction where
  | r (opcode : BitVec 6) (rs rt rd : Reg) (shamt : BitVec 5) (funct : BitVec 6) (mnemonic : Mnemonic)
  | i (opcode : BitVec 6) (rs rt : Reg) (imm : Imm16) (mnemonic : Mnemonic)
  | j (opcode : BitVec 6) (target : Target26) (mnemonic : Mnemonic)
  | syscall (opcode funct : BitVec 6) (mnemonic : Mnemonic)
  deriving DecidableEq, Repr

namespace Instruction

/-- The `format` part of an Instruction (R122). -/
def format : Instruction → Format
  | .r .. => .r
  | .i .. => .i
  | .j .. => .j
  | .syscall .. => .syscall

/-- The `opcode` part, "always present" (R82, R122). -/
def opcode : Instruction → BitVec 6
  | .r op _ _ _ _ _ _ => op
  | .i op _ _ _ _ => op
  | .j op _ _ => op
  | .syscall op _ _ => op

/-- The `mnemonic` part (R122). -/
def mnemonic : Instruction → Mnemonic
  | .r _ _ _ _ _ _ m => m
  | .i _ _ _ _ m => m
  | .j _ _ m => m
  | .syscall _ _ m => m

end Instruction

/-- The instructions of spec/opcode_table.json, one constructor per row, in the table's order. The fields are those the
row's format carries (`shamt` is the constant 0 and is left out, R87). A word in no row has mnemonic `unknown` and is
no `Instr`: the engine's `unknown` handler takes the word itself (R219). -/
inductive Instr where
  /-- The literal word `0x0000000C`, format `Syscall` (R94). -/
  | syscall
  | add (rs rt rd : Reg)
  | sub (rs rt rd : Reg)
  | and (rs rt rd : Reg)
  | or (rs rt rd : Reg)
  | slt (rs rt rd : Reg)
  /-- Any other opcode-0 word with function code `0x0C`: format `R`, its fields carried and not read (R100). -/
  | syscallR (rs rt rd : Reg)
  | j (target : Target26)
  | beq (rs rt : Reg) (imm : Imm16)
  | bne (rs rt : Reg) (imm : Imm16)
  | addiu (rs rt : Reg) (imm : Imm16)
  | andi (rs rt : Reg) (imm : Imm16)
  | ori (rs rt : Reg) (imm : Imm16)
  /-- `rs` is carried and not read (R101, R170). -/
  | lui (rs rt : Reg) (imm : Imm16)
  | lw (rs rt : Reg) (imm : Imm16)
  | sw (rs rt : Reg) (imm : Imm16)
  deriving DecidableEq, Repr

end Sys2Proof
end

