-- ==== Sys2Proof/WellFormed.lean ====
section
/-! DEFINITION. Which decoder values are well formed (40_decoder.md R122). An `Instr` cannot be ill formed: each of its
fields is a bit vector of exactly the field's width (10_state.md R20). -/

namespace Sys2Proof

/-- The mnemonics format `R` may carry (R122). -/
def Mnemonic.inFormatR : Mnemonic → Bool
  | .add | .sub | .and | .or | .slt | .syscall | .unknown => true
  | .addiu | .andi | .ori | .lui | .beq | .bne | .lw | .sw | .j => false

/-- The mnemonics format `I` may carry (R122). -/
def Mnemonic.inFormatI : Mnemonic → Bool
  | .addiu | .andi | .ori | .lui | .beq | .bne | .lw | .sw | .unknown => true
  | .add | .sub | .and | .or | .slt | .syscall | .j => false

/-- R122: the constants each format fixes and the mnemonics it may carry. -/
def Instruction.wellFormed : Instruction → Bool
  | .r opcode _ _ _ shamt _ mnemonic => opcode == 0 && shamt == 0 && mnemonic.inFormatR
  | .i opcode _ _ _ mnemonic => opcode != 0 && opcode != 2 && mnemonic.inFormatI
  | .j opcode _ mnemonic => opcode == 2 && mnemonic == .j
  | .syscall opcode funct mnemonic => opcode == 0 && funct == 0x0C && mnemonic == .syscall

end Sys2Proof
end

