-- ==== Sys2Proof/Decode.lean ====
section
/-! DEFINITION. The instruction decoder block (30_encoding.md R80 to R107, 40_decoder.md R120 to R128) and the encoder,
its inverse (R103). -/

namespace Sys2Proof

/-! ### Field extraction, as slices of the word (R82 to R89; the block view of R123) -/

/-- R82: `w[31:26]`. -/
def opcodeOf (w : Word) : BitVec 6 := w.extractLsb' 26 6

/-- R83: `w[5:0]`. -/
def functOf (w : Word) : BitVec 6 := w.extractLsb' 0 6

/-- R84: `w[25:21]`. -/
def rsOf (w : Word) : Reg := w.extractLsb' 21 5

/-- R85: `w[20:16]`. -/
def rtOf (w : Word) : Reg := w.extractLsb' 16 5

/-- R86: `w[15:11]`. -/
def rdOf (w : Word) : Reg := w.extractLsb' 11 5

/-- R88: `w[15:0]`, never sign-extended here. -/
def immOf (w : Word) : Imm16 := w.extractLsb' 0 16

/-- R89: `w[25:0]`. -/
def targetOf (w : Word) : Target26 := w.extractLsb' 0 26

/-- The literal of the syscall instruction (R81 test 1, R94). -/
def syscallWord : Word := 0x0000000C#32

/-- R81: the four tests, in order. -/
def formatOf (w : Word) : Format :=
  if w = syscallWord then .syscall
  else if opcodeOf w = 0x00#6 then .r
  else if opcodeOf w = 0x02#6 then .j
  else .i

/-- The function-code table (R96). -/
def functTable (funct : BitVec 6) : Mnemonic :=
  if funct = 0x20#6 then .add
  else if funct = 0x24#6 then .and
  else if funct = 0x25#6 then .or
  else if funct = 0x2A#6 then .slt
  else if funct = 0x22#6 then .sub
  else if funct = 0x0C#6 then .syscall
  else .unknown

/-- The opcode table (R97). -/
def opcodeTable (opcode : BitVec 6) : Mnemonic :=
  if opcode = 0x09#6 then .addiu
  else if opcode = 0x0C#6 then .andi
  else if opcode = 0x04#6 then .beq
  else if opcode = 0x05#6 then .bne
  else if opcode = 0x02#6 then .j
  else if opcode = 0x0F#6 then .lui
  else if opcode = 0x23#6 then .lw
  else if opcode = 0x0D#6 then .ori
  else if opcode = 0x2B#6 then .sw
  else .unknown

/-- The decoder's algorithm (R121): total, a function of the word alone. -/
def decode (w : Word) : Instruction :=
  match formatOf w with
  | .syscall => .syscall 0x00#6 0x0C#6 .syscall
  | .r => .r 0x00#6 (rsOf w) (rtOf w) (rdOf w) 0#5 (functOf w) (functTable (functOf w))
  | .j => .j 0x02#6 (targetOf w) (opcodeTable 0x02#6)
  | .i => .i (opcodeOf w) (rsOf w) (rtOf w) (immOf w) (opcodeTable (opcodeOf w))

/-! ### From the decoder's value to the table's rows -/

/-- The rows of format `R`, by mnemonic (R122). -/
def instrR (m : Mnemonic) (rs rt rd : Reg) : Option Instr :=
  match m with
  | .add => some (.add rs rt rd)
  | .sub => some (.sub rs rt rd)
  | .and => some (.and rs rt rd)
  | .or => some (.or rs rt rd)
  | .slt => some (.slt rs rt rd)
  | .syscall => some (.syscallR rs rt rd)
  | .addiu | .andi | .ori | .lui | .beq | .bne | .lw | .sw | .j | .unknown => none

/-- The rows of format `I`, by mnemonic (R122). -/
def instrI (m : Mnemonic) (rs rt : Reg) (imm : Imm16) : Option Instr :=
  match m with
  | .addiu => some (.addiu rs rt imm)
  | .andi => some (.andi rs rt imm)
  | .ori => some (.ori rs rt imm)
  | .lui => some (.lui rs rt imm)
  | .beq => some (.beq rs rt imm)
  | .bne => some (.bne rs rt imm)
  | .lw => some (.lw rs rt imm)
  | .sw => some (.sw rs rt imm)
  | .add | .sub | .and | .or | .slt | .syscall | .j | .unknown => none

/-- The row of spec/opcode_table.json a decoder value stands for; `none` is the `unknown` outcome, which the engine
reports (R98, R219), and a value that is not well formed. -/
def Instr.ofInstruction : Instruction → Option Instr
  | .r _ rs rt rd _ _ m => instrR m rs rt rd
  | .i _ rs rt imm m => instrI m rs rt imm
  | .j _ target m => if m = .j then some (.j target) else none
  | .syscall _ _ m => if m = .syscall then some .syscall else none

/-- The instruction a word holds; `none` exactly for the words whose mnemonic is `unknown` (R95, R98). -/
def decodeWord (w : Word) : Option Instr := Instr.ofInstruction (decode w)

/-- The host's view of the decoder: `w` holds the instruction's bits with bit 0 the least significant, as R11 numbers
them; an instruction is one 32-bit word (R80), and bits above `nbits` are 0. -/
def decodeTableWord (nbits w : Nat) : Option Instr := decodeWord (BitVec.ofNat 32 (w % 2 ^ nbits))

/-! ### The encoder (R103) -/

/-- The function code of each mnemonic that is selected by one (R96). -/
def functAdd : BitVec 6 := 0x20#6
/-- R96. -/
def functSub : BitVec 6 := 0x22#6
/-- R96. -/
def functAnd : BitVec 6 := 0x24#6
/-- R96. -/
def functOr : BitVec 6 := 0x25#6
/-- R96. -/
def functSlt : BitVec 6 := 0x2A#6
/-- R96. -/
def functSyscall : BitVec 6 := 0x0C#6

/-- `enc_R` of R103 by the layout of R90, with the unread bits 10 to 6 given by `unread`. -/
def encR (funct : BitVec 6) (rs rt rd : Reg) (unread : BitVec 5) : Word :=
  0#6 ++ rs ++ rt ++ rd ++ unread ++ funct

/-- `enc_I` of R103 by the layout of R91. -/
def encI (opcode : BitVec 6) (rs rt : Reg) (imm : Imm16) : Word := opcode ++ rs ++ rt ++ imm

/-- `enc_J` of R103 by the layout of R92. -/
def encJ (target : Target26) : Word := 0x02#6 ++ target

/-- The unread bits of an `R`-format `syscall`: zero like every unread bit (R103), but for the fields that are all zero,
where zero bits would spell the literal of format `Syscall` (R103's caution); there bit 6 is set, as in `0x0000004C`.
DESIGN CHOICE, safe: R103 has no encoding function for it, and this is one of the words that decode to it (log 5). -/
def syscallRUnread (rs rt rd : Reg) : BitVec 5 :=
  if rs = 0#5 ∧ rt = 0#5 ∧ rd = 0#5 then 1#5 else 0#5

/-- The lossless encoder: a word that decodes to exactly the instruction it is given, `lui`'s unread `rs` and the unread
fields of an `R`-format `syscall` included, which R103's canonical words set to zero (`encCanonical`; log 5). -/
def encode : Instr → Word
  | .syscall => syscallWord
  | .add rs rt rd => encR functAdd rs rt rd 0#5
  | .sub rs rt rd => encR functSub rs rt rd 0#5
  | .and rs rt rd => encR functAnd rs rt rd 0#5
  | .or rs rt rd => encR functOr rs rt rd 0#5
  | .slt rs rt rd => encR functSlt rs rt rd 0#5
  | .syscallR rs rt rd => encR functSyscall rs rt rd (syscallRUnread rs rt rd)
  | .j target => encJ target
  | .beq rs rt imm => encI 0x04#6 rs rt imm
  | .bne rs rt imm => encI 0x05#6 rs rt imm
  | .addiu rs rt imm => encI 0x09#6 rs rt imm
  | .andi rs rt imm => encI 0x0C#6 rs rt imm
  | .ori rs rt imm => encI 0x0D#6 rs rt imm
  | .lui rs rt imm => encI 0x0F#6 rs rt imm
  | .lw rs rt imm => encI 0x23#6 rs rt imm
  | .sw rs rt imm => encI 0x2B#6 rs rt imm

/-- The instruction with every unread operand bit zero (R101, R103): `lui` with `rs` 0, and a `syscall` with the fields
of the literal, which is the one `syscall` word whose bits 25 to 6 are zero. -/
def Instr.canonical : Instr → Instr
  | .syscall | .syscallR _ _ _ => .syscall
  | .lui _ rt imm => .lui 0#5 rt imm
  | .add rs rt rd => .add rs rt rd
  | .sub rs rt rd => .sub rs rt rd
  | .and rs rt rd => .and rs rt rd
  | .or rs rt rd => .or rs rt rd
  | .slt rs rt rd => .slt rs rt rd
  | .j target => .j target
  | .beq rs rt imm => .beq rs rt imm
  | .bne rs rt imm => .bne rs rt imm
  | .addiu rs rt imm => .addiu rs rt imm
  | .andi rs rt imm => .andi rs rt imm
  | .ori rs rt imm => .ori rs rt imm
  | .lw rs rt imm => .lw rs rt imm
  | .sw rs rt imm => .sw rs rt imm

/-- The spec's `enc` (R103): the encoding functions "with every unread bit set to zero". -/
def encCanonical (i : Instr) : Word := encode i.canonical

/-- R101: the bits of a decoded word that do not affect execution, as a mask. An `unknown` word has none: it is reported
whole. -/
def Instruction.unreadBits : Instruction → Word
  | .r _ _ _ _ _ _ m =>
    match m with
    | .add | .sub | .and | .or | .slt => 0x000007C0#32
    | .syscall => 0x03FFFFC0#32
    | .addiu | .andi | .ori | .lui | .beq | .bne | .lw | .sw | .j | .unknown => 0#32
  | .i _ _ _ _ m => if m = .lui then 0x03E00000#32 else 0#32
  | .j _ _ _ => 0#32
  | .syscall _ _ _ => 0#32

/-- The mnemonic of an instruction, as the table spells it (R95). -/
def Instr.mnemonic : Instr → Mnemonic
  | .syscall | .syscallR .. => .syscall
  | .add .. => .add
  | .sub .. => .sub
  | .and .. => .and
  | .or .. => .or
  | .slt .. => .slt
  | .j .. => .j
  | .beq .. => .beq
  | .bne .. => .bne
  | .addiu .. => .addiu
  | .andi .. => .andi
  | .ori .. => .ori
  | .lui .. => .lui
  | .lw .. => .lw
  | .sw .. => .sw

end Sys2Proof
end

