-- ==== Sys2Proof/Machine/Flags.lean ====
section
/-! DEFINITION. The hardware has no status flags, condition codes or predicates (10_state.md R42): `slt` writes its
Boolean to a general register and the branches compare registers directly. This file holds those comparisons. -/

namespace Sys2Proof.Machine

/-- `toS32(a) < toS32(b)`, the comparison of the two signed values (R12, R167). -/
def lessSigned (a b : Word) : Bool := decide (a.toInt < b.toInt)

/-- The 32-bit value `slt` writes for a Boolean (R167). -/
def boolWord (b : Bool) : Word := if b then 1#32 else 0#32

/-- The comparison of all 32 bits that `beq` and `bne` make (R190, R191). -/
def sameWord (a b : Word) : Bool := a == b

end Sys2Proof.Machine
end

