-- ==== Sys2Proof/Config.lean ====
section
/-! DEFINITION. The hardware's constants, its open parameters (00_scope.md R9, R10), and the values the model names
where the spec leaves a reset value open. -/

namespace Sys2Proof

/-- The parameters of R9 that the spec leaves OPEN and that "a model takes as an argument". They stand in
`Machine.State`, so a statement about every state is a statement about every choice of them; no step changes them.
DESIGN CHOICE, safe (log 1). -/
structure Params where
  /-- `TEXT_BASE`: the byte address of instruction index 0, used by `j` only (D1). -/
  textBase : Nat
  /-- `DATA_BASE`: the address of data cell 0, used by syscall code 4 only (D2). -/
  dataBase : Nat
  /-- `DATA_CAP`: the number of cells of the data segment (D5). -/
  dataCap : Nat
  /-- `STACK_CAP`: the number of cells of the stack segment (D5). -/
  stackCap : Nat
  /-- `PROG_CAP`: the greatest number of instruction words that can be loaded (D5). -/
  progCap : Nat
  /-- `ZERO_HARDWIRED`: whether a write to register 0 is discarded (D3, R23). -/
  zeroHardwired : Bool
  deriving DecidableEq, Repr

/-- The constraints (a) and (b) of R10; (c) holds of every natural number, and (d) is about a launch. -/
abbrev Params.wf (p : Params) : Prop :=
  4 ∣ p.textBase ∧ p.textBase + 4 * p.progCap ≤ 2 ^ 32 ∧ p.dataBase < 2 ^ 32

namespace Config

/-- `STACK_TOP`: reset value of register 29 and origin of stack addressing (R24). -/
def stackTop : Word := 0x7FFFEFFC#32

/-- What `State.reset` holds in a register for which the spec states no reset value, and what a segment cell that the
memory does not list reads as. The spec lets any value stand there and forbids a model to choose zero (R41, U1 to U3).
DESIGN CHOICE, unsafe for a claim about `State.reset` alone (log 2, log 3); `State.launch` takes any values instead. -/
def unspecifiedWord : Word := 0xA5A5A5A5#32

/-- The parameters `State.reset` is built with: the spec's defaults for the two bases and `ZERO_HARDWIRED` (R9); for the
capacities, which have no default, the 64 cells of the spec's test vectors and the greatest program length that R10 (a)
allows with the default `TEXT_BASE`. DESIGN CHOICE, unsafe (log 4). -/
def defaultParams : Params where
  textBase := 0x00400000
  dataBase := 0x10010000
  dataCap := 64
  stackCap := 64
  progCap := 0x3FF00000
  zeroHardwired := true

end Config

end Sys2Proof
end

