-- ==== Sys2Proof/Machine/Operands.lean ====
section
/-! DEFINITION. How each instruction reads its immediate, offset or target (30_encoding.md R93), as functions of plain
values. -/

namespace Sys2Proof.Machine

/-- `zext_32`: 16 zero bits above the immediate (R13); read by `addiu`, `andi` and `ori` (R93, 90_conflicts.md C2). -/
def zext32 (imm : Imm16) : Word := imm.setWidth 32

/-- `sext_16`: the two's-complement value of the immediate, in Z (R13); read by `beq` and `bne` only (R93). -/
def sext16 (imm : Imm16) : Int := imm.toInt

/-- `imm : 0x0000`, the operand of `lui` (R93, R170). -/
def upperImmediate (imm : Imm16) : Word := imm ++ 0x0000#16

/-- `x[rs] + imm` in Z: the base read as unsigned, the offset never negative, no wrap at 2^32 (R200, D10, D23). -/
def effectiveAddress (base : Word) (imm : Imm16) : Int := (base.toNat : Int) + imm.toNat

/-- The stack cell index of an effective address: `STACK_TOP - a`, not scaled (20_memory.md R51, D9). -/
def stackIndex (a : Int) : Int := (Config.stackTop.toNat : Int) - a

/-- The data cell index of a string address: `x[4] - DATA_BASE` in Z, not scaled (R54, R213). -/
def dataIndex (dataBase : Nat) (address : Word) : Int := (address.toNat : Int) - dataBase

/-- The target of a taken branch: `pc` already holds the default advance (R190, R191). -/
def branchTarget (pc : Int) (imm : Imm16) : Int := pc + sext16 imm

/-- `A`: the byte address of instruction index `pc`, mod 2^32 (R193). -/
def byteAddress (textBase : Nat) (pc : Int) : Word := BitVec.ofInt 32 (textBase + 4 * pc)

/-- The new `pc` of `j` (R193): the four top bits of the advanced `pc`'s byte address, the target and two zero bits form
`T`; the index is `(T - TEXT_BASE) / 4` in Z. The division is exact when `TEXT_BASE` is a multiple of 4 (R10 (a)); outside that contract it
floors (log 15). -/
def jumpTarget (textBase : Nat) (pc : Int) (target : Target26) : Int :=
  let a := byteAddress textBase pc
  let t : Word := a.extractLsb' 28 4 ++ target ++ 0#2
  ((t.toNat : Int) - textBase) / 4

end Sys2Proof.Machine
end

