-- ==== Sys2Proof/Machine/State.lean ====
section
/-! DEFINITION. The engine's architectural state (10_state.md R20 to R43), the ways a step can stop, and reset (R41). -/

namespace Sys2Proof.Machine

/-- The memory an out-of-range index belongs to (R29). -/
inductive Region where
  | stack | data
  deriving DecidableEq, Repr

/-- `AddressFault(region, k)`: the cause the `fault` item records, with the offending index in Z (R29). -/
structure AddressFault where
  region : Region
  index : Int
  deriving DecidableEq, Repr

/-- The outcome a run reports to its caller (R39, R146). -/
inductive RunOutcome where
  | success
  | unsafeTermination
  | fault (cause : AddressFault)
  deriving DecidableEq, Repr

/-- An item of the output sequence `Out` (R37). -/
inductive Event where
  /-- Syscall code 1 (R212). -/
  | printInt (n : Int)
  /-- Syscall code 4, one per character (R213). -/
  | printChar (c : Word)
  /-- The `unknown` handler, carrying the fetched word (R219). -/
  | reportUnknown (w : Word)
  deriving DecidableEq, Repr

/-- A segment's contents: (cell index, 32-bit word) pairs, indexes strictly rising, no word equal to what an unlisted
cell reads as. A cell is one word and has no bytes that could be named (20_memory.md R50, R57), so the word is the unit
here. DESIGN CHOICE, safe (log 6). -/
abbrev Memory := List (Nat × Word)

/-- The state of the engine: everything §10_state.md lists, the parameters, and the answers of the input collaborator. -/
structure State where
  /-- The open parameters of R9; no step changes them (log 1). -/
  params : Params
  /-- The register file `x` (R20). -/
  regs : Vector Word 32
  /-- The program counter, an index in whole instructions, in Z (R25). -/
  pc : Int
  /-- `IMem`: the loaded program, `IMem[0]` first; `N` is its length (R30). -/
  imem : List Word
  /-- The data segment, by cell index (R32). -/
  data : Memory
  /-- The stack segment, by cell index (R34). -/
  stack : Memory
  /-- Set by the terminate service only (R28). -/
  halted : Bool
  /-- `none`, or the cause of the fault that ended the run (R29). -/
  fault : Option AddressFault
  /-- `Out`, oldest event first (R37). -/
  out : List Event
  /-- The answers the input collaborator has supplied and no read has taken yet, oldest first (R38, R150; log 7). -/
  input : List Word
  deriving DecidableEq, Repr

/-- Why `step` (or an instruction) gives no next state. -/
inductive Fault where
  /-- Raised by `step` alone: the loop condition of R141 fails, so no step is taken; the run's outcome is the argument
  (R146). Safe: the spec takes no step here either (log 8). -/
  | runEnded (outcome : RunOutcome)
  /-- Raised by the read-integer service when no answer has been supplied: the step that executes it does not complete
  (R151; U13 calls it stuck). Safe: the spec takes no step here until an answer arrives (log 7). -/
  | awaitingInput
  deriving DecidableEq, Repr

/-- Why the model gives no meaning. -/
inductive Refusal where
  /-- An arm of `exec` that has no meaning yet would answer this; none does. Safe. -/
  | notModelled (mnemonic : String)
  /-- Raised by `State.launch`: the parameters break R10 (a) or (b). Safe: the spec's rules do not hold as written
  there, and refusing is the model's choice (log 9). -/
  | parametersOutOfContract
  /-- Raised by `State.launch`: more program words than `PROG_CAP` (R40, U10). Safe: the spec refuses the launch. -/
  | programTooLong
  /-- Raised by `State.launch`: more data words than `DATA_CAP` (R40, U10). Safe: the spec refuses the launch. -/
  | dataTooLong
  deriving DecidableEq, Repr

/-- The machine right after reset with the default parameters and nothing loaded (R41, R149). Register 0, register 29,
`pc`, `halted`, `fault` and `Out` hold the spec's values; the other registers hold the value log 2 names. -/
def State.reset : State where
  params := Config.defaultParams
  regs := ((Vector.replicate 32 Config.unspecifiedWord).set 0 0#32).set 29 Config.stackTop
  pc := 0
  imem := []
  data := []
  stack := []
  halted := false
  fault := none
  out := []
  input := []

end Sys2Proof.Machine
end

