-- ==== Sys2Proof/Machine/Ops.lean ====
section
/-! DEFINITION. The named operations over memory, registers, program counter, events and input that every meaning is
written with, the engine's one fault (60_exceptions.md R234), and the fetch with its loop condition (41_engine.md R141). -/

namespace Sys2Proof.Machine

/-! ### Segments -/

/-- What a cell that the list does not name reads as (log 3). -/
def unlisted : Word := Config.unspecifiedWord

/-- The canonical form: indexes strictly rising, no entry equal to what an unlisted cell reads as. -/
abbrev Memory.wf (m : Memory) : Prop :=
  m.Pairwise (fun a b => a.1 < b.1) ∧ ∀ c ∈ m, c.2 ≠ unlisted

/-- Every listed index lies below the segment's capacity. -/
abbrev Memory.within (m : Memory) (cap : Nat) : Prop := ∀ c ∈ m, c.1 < cap

/-- The word in a cell; reading has no side effect (R59). -/
def Memory.read : Memory → Nat → Word
  | [], _ => unlisted
  | (j, u) :: m, k => if k = j then u else Memory.read m k

/-- Put a word in front of a list whose indexes are all greater, keeping the canonical form. -/
def Memory.put (k : Nat) (v : Word) (m : Memory) : Memory :=
  if v = unlisted then m else (k, v) :: m

/-- Write one whole cell; no other cell changes (R53, R59). -/
def Memory.write : Memory → Nat → Word → Memory
  | [], k, v => Memory.put k v []
  | (j, u) :: m, k, v =>
    if k < j then Memory.put k v ((j, u) :: m)
    else if k = j then Memory.put k v m
    else (j, u) :: Memory.write m k v

/-- The segment whose cell `k` holds `f k`, for `n` cells from index `k` on. -/
def Memory.fill (f : Nat → Word) : (n k : Nat) → Memory
  | 0, _ => []
  | n + 1, k => Memory.put k (f k) (Memory.fill f n (k + 1))

namespace State

/-! ### Registers (R20, R23) -/

/-- Whether register `r` discards writes and reads zero: register 0 under `ZERO_HARDWIRED` (R23, log 10). -/
def hardZero (s : State) (r : Reg) : Bool := s.params.zeroHardwired && r == 0#5

/-- `x[r]`: no side effect (R23). -/
def readReg (s : State) (r : Reg) : Word :=
  if s.hardZero r then 0#32 else s.regs[r.toNat]'r.isLt

/-- The register file after `x[r] <- v`, subject to the register-0 rule (R23). -/
def regsAfterWrite (s : State) (r : Reg) (v : Word) : Vector Word 32 :=
  if s.hardZero r then s.regs else s.regs.set r.toNat v r.isLt

/-- `x[r] <- v` (R23). -/
def writeReg (s : State) (r : Reg) (v : Word) : State := { s with regs := s.regsAfterWrite r v }

/-! ### Program counter (R25, R26) -/

/-- `pc <- t`: any integer may be written (R192). -/
def setPc (s : State) (t : Int) : State := { s with pc := t }

/-- The default advance, made before dispatch (R26, R141). -/
def advance (s : State) : State := { s with pc := s.pc + 1 }

/-! ### Events, input, halting (R28, R37, R38) -/

/-- `emit` for several events in order: they are appended to `Out` (R14, R150). -/
def emitAll (s : State) (es : List Event) : State := { s with out := s.out ++ es }

/-- `emit E`: append one event to `Out` (R14, R37). -/
def emit (s : State) (e : Event) : State := s.emitAll [e]

/-- `halted <- true` (R216). -/
def halt (s : State) : State := { s with halted := true }

/-- `ReadInt()`: the oldest answer not yet taken, and the state without it; `none` while the request is unanswered
(R38, R151). -/
def readInt (s : State) : Option (Word × State) :=
  match s.input with
  | [] => none
  | n :: rest => some (n, { s with input := rest })

/-! ### The addressing fault (R234): the only condition the hardware records. There is no trap entry, nothing is saved,
and there is no return from it (R230, R239, R240). -/

/-- `raise AddressFault(region, k)`: record the cause; the caller abandons the rest of the instruction. `pc` keeps the
default advance and events already emitted stay (R234, D19). The faulting step has a next state, and the step after it
reports the outcome (log 14). -/
def raise (s : State) (f : AddressFault) : State := { s with fault := some f }

/-! ### Memory access (R52 to R55) -/

/-- `MemRead(a, 4)` (R52). -/
def memRead (s : State) (a : Int) : Except AddressFault Word :=
  if 0 ≤ stackIndex a ∧ stackIndex a < s.params.stackCap then .ok (s.stack.read (stackIndex a).toNat)
  else .error ⟨.stack, stackIndex a⟩

/-- `MemWrite(a, 4, v)` (R53). -/
def memWrite (s : State) (a : Int) (v : Word) : Except AddressFault State :=
  if 0 ≤ stackIndex a ∧ stackIndex a < s.params.stackCap then
    .ok { s with stack := s.stack.write (stackIndex a).toNat v }
  else .error ⟨.stack, stackIndex a⟩

/-- `DataRead(k)` (R54). -/
def dataRead (s : State) (k : Int) : Except AddressFault Word :=
  if 0 ≤ k ∧ k < s.params.dataCap then .ok (s.data.read k.toNat) else .error ⟨.data, k⟩

/-- Whether `pc` addresses a loaded instruction (R141, R146). -/
abbrev pcLoaded (s : State) : Prop := 0 ≤ s.pc ∧ s.pc < s.imem.length

/-- The loop condition of R141. -/
abbrev running (s : State) : Prop := s.pcLoaded ∧ s.halted = false ∧ s.fault = none

/-- The word at index `pc`, when `pc` addresses a loaded instruction (R55). -/
def fetch (s : State) : Option Word := if 0 ≤ s.pc then s.imem[s.pc.toNat]? else none

/-- The word of the next step while the loop condition holds; else the outcome of the run, chosen in the order of R146:
`halted`, then `fault`, then `pc` out of range. -/
def nextWord (s : State) : Except RunOutcome Word :=
  if s.halted then .error .success
  else
    match s.fault with
    | some cause => .error (.fault cause)
    | none =>
      match s.fetch with
      | none => .error .unsafeTermination
      | some w => .ok w

end State

end Sys2Proof.Machine
end

