-- ==== Sys2Proof/Machine/ArithLogic.lean ====
section
/-! DEFINITION. The nine arithmetic and logic instructions (42_arith_logic.md R160 to R170): no flag, no fault, no
memory, no event; arithmetic wraps modulo 2^32 (R168, R169). -/

namespace Sys2Proof.Machine

/-- The shape the nine instructions share: write one register and go on (R169). -/
def writeResult (dest : Reg) (v : Word) (s : State) : Host.Outcome State Fault Refusal :=
  .next (s.writeReg dest v)

/-- R160: `x[rd] <- (x[rs] + x[rt]) mod 2^32`. -/
def execAdd (rs rt rd : Reg) (s : State) : Host.Outcome State Fault Refusal :=
  writeResult rd (s.readReg rs + s.readReg rt) s

/-- R166: `x[rd] <- (x[rs] - x[rt]) mod 2^32`. -/
def execSub (rs rt rd : Reg) (s : State) : Host.Outcome State Fault Refusal :=
  writeResult rd (s.readReg rs - s.readReg rt) s

/-- R162: `x[rd] <- x[rs] & x[rt]`. -/
def execAnd (rs rt rd : Reg) (s : State) : Host.Outcome State Fault Refusal :=
  writeResult rd (s.readReg rs &&& s.readReg rt) s

/-- R163: `x[rd] <- x[rs] | x[rt]`. -/
def execOr (rs rt rd : Reg) (s : State) : Host.Outcome State Fault Refusal :=
  writeResult rd (s.readReg rs ||| s.readReg rt) s

/-- R167: `x[rd] <- 1` if `x[rs] < x[rt]` as signed integers, else `0`. -/
def execSlt (rs rt rd : Reg) (s : State) : Host.Outcome State Fault Refusal :=
  writeResult rd (boolWord (lessSigned (s.readReg rs) (s.readReg rt))) s

/-- R161: `x[rt] <- (x[rs] + zext_32(imm)) mod 2^32`; the immediate is not sign-extended (90_conflicts.md C2). -/
def execAddiu (rs rt : Reg) (imm : Imm16) (s : State) : Host.Outcome State Fault Refusal :=
  writeResult rt (s.readReg rs + zext32 imm) s

/-- R164: `x[rt] <- x[rs] & zext_32(imm)`. -/
def execAndi (rs rt : Reg) (imm : Imm16) (s : State) : Host.Outcome State Fault Refusal :=
  writeResult rt (s.readReg rs &&& zext32 imm) s

/-- R165: `x[rt] <- x[rs] | zext_32(imm)`. -/
def execOri (rs rt : Reg) (imm : Imm16) (s : State) : Host.Outcome State Fault Refusal :=
  writeResult rt (s.readReg rs ||| zext32 imm) s

/-- R170: `x[rt] <- imm : 0x0000`; `rs` is carried and not read. -/
def execLui (_rs rt : Reg) (imm : Imm16) (s : State) : Host.Outcome State Fault Refusal :=
  writeResult rt (upperImmediate imm) s

end Sys2Proof.Machine
end

