-- ==== Sys2Proof/Machine/Control.lean ====
section
/-! DEFINITION. The control transfers (43_control_transfer.md R190 to R195). On entry `pc` holds the default advance
`k + 1` (R192); a transfer overwrites it, and never faults. -/

namespace Sys2Proof.Machine

/-- R190: if `x[rs] = x[rt]` then `pc <- pc + sext_16(imm)`. -/
def execBeq (rs rt : Reg) (imm : Imm16) (s : State) : Host.Outcome State Fault Refusal :=
  .next (if sameWord (s.readReg rs) (s.readReg rt) then s.setPc (branchTarget s.pc imm) else s)

/-- R191: if `x[rs] != x[rt]` then `pc <- pc + sext_16(imm)`. -/
def execBne (rs rt : Reg) (imm : Imm16) (s : State) : Host.Outcome State Fault Refusal :=
  .next (if sameWord (s.readReg rs) (s.readReg rt) then s else s.setPc (branchTarget s.pc imm))

/-- R193: the four top bits of the byte address of the advanced `pc`, the target and two zero bits, back to an index. -/
def execJ (target : Target26) (s : State) : Host.Outcome State Fault Refusal :=
  .next (s.setPc (jumpTarget s.params.textBase s.pc target))

end Sys2Proof.Machine
end

