-- ==== Sys2Proof/Machine/LoadStore.lean ====
section
/-! DEFINITION. The load and the store (44_load_store.md R200 to R204): the stack segment only. -/

namespace Sys2Proof.Machine

/-- R201: `x[rt] <- MemRead(x[rs] + imm, 4)`; out of range, the fault is recorded and no register is written. The read
and its check happen also where the register write is discarded. -/
def execLw (rs rt : Reg) (imm : Imm16) (s : State) : Host.Outcome State Fault Refusal :=
  match s.memRead (effectiveAddress (s.readReg rs) imm) with
  | .ok v => .next (s.writeReg rt v)
  | .error f => .next (s.raise f)

/-- R202: `MemWrite(x[rs] + imm, 4, x[rt])`; out of range, the fault is recorded and no cell is written. -/
def execSw (rs rt : Reg) (imm : Imm16) (s : State) : Host.Outcome State Fault Refusal :=
  match s.memWrite (effectiveAddress (s.readReg rs) imm) (s.readReg rt) with
  | .ok s' => .next s'
  | .error f => .next (s.raise f)

end Sys2Proof.Machine
end

