-- ==== Sys2Proof/Machine/Syscall.lean ====
section
/-! DEFINITION. The `syscall` instruction with its services, and the handler of the `unknown` mnemonic (45_syscall.md
R210 to R219). `syscall` is no trap: it saves nothing and transfers control nowhere (R210). -/

namespace Sys2Proof.Machine

/-- The syscall-code register, `x[2]` (R21). -/
abbrev codeReg : Reg := 2#5

/-- The argument register, `x[4]` (R21). -/
abbrev argReg : Reg := 4#5

/-- R212, code 1: `emit PrintInt(toS32(x[4]))`. -/
def printInteger (s : State) : State := s.emit (.printInt (s.readReg argReg).toInt)

/-- The cursor's walk of R213: the characters read before the zero cell or the fault, in order, and the fault if the
cursor left the segment. `n` is the number of cells from `k` to the capacity, so the walk that reaches `n = 0` has its
cursor at the end of the segment, where the read faults. -/
def scanString (s : State) : (n : Nat) → (k : Int) → List Word × Option AddressFault
  | 0, k => ([], some ⟨.data, k⟩)
  | n + 1, k =>
    match s.dataRead k with
    | .error f => ([], some f)
    | .ok v =>
      if v = 0#32 then ([], none)
      else (v :: (scanString s n (k + 1)).1, (scanString s n (k + 1)).2)

/-- The print-string service with its cursor at cell `k`: emit the characters, then record the fault if there is one;
what was emitted stays (R213, R234). -/
def printStringFrom (s : State) (k : Int) : State :=
  let walk := scanString s (s.params.dataCap - k).toNat k
  let printed := s.emitAll (walk.1.map .printChar)
  match walk.2 with
  | none => printed
  | some f => printed.raise f

/-- R213, code 4: the cursor starts at `x[4] - DATA_BASE`. -/
def printString (s : State) : State :=
  printStringFrom s (dataIndex s.params.dataBase (s.readReg argReg))

/-- R215, code 5: the answer goes to `x[2]`; while there is none the step does not complete (R151, log 7). -/
def readInteger (s : State) : Host.Outcome State Fault Refusal :=
  match s.readInt with
  | none => .fault .awaitingInput
  | some (n, s') => .next (s'.writeReg codeReg n)

/-- R210: dispatch on the whole of `x[2]`; any other code does nothing (R217). -/
def service (s : State) : Host.Outcome State Fault Refusal :=
  if s.readReg codeReg = 1#32 then .next (printInteger s)
  else if s.readReg codeReg = 4#32 then .next (printString s)
  else if s.readReg codeReg = 5#32 then readInteger s
  else if s.readReg codeReg = 10#32 then .next s.halt
  else .next s

/-- R210, the word of format `Syscall`. -/
def execSyscall (s : State) : Host.Outcome State Fault Refusal := service s

/-- R210, R100: a word of format `R` with function code `0x0C`; the handler reads no field. -/
def execSyscallR (_rs _rt _rd : Reg) (s : State) : Host.Outcome State Fault Refusal := service s

/-- R219: the `unknown` handler reports the fetched word and execution continues (R145, R231; log 11). -/
def reportUnknown (w : Word) (s : State) : State := s.emit (.reportUnknown w)

end Sys2Proof.Machine
end

