-- ==== Sys2Proof/Machine/Launch.lean ====
section
/-! DEFINITION. The start of a run: what the collaborators supply (10_state.md R36, R40; 70_reset_and_hazards.md R263)
and the state reset makes of it (R41, R149), and the loading of one word where the next fetch finds it. -/

namespace Sys2Proof.Machine

/-- What a run starts from: the parameters, the two inputs, the answers the console will give, and the contents the spec
leaves open (`InitRegs`, `InitStack`, `InitDataFill` of R9, any values). -/
structure Launch where
  params : Params
  program : List Word
  data : List Word
  input : List Word
  initRegs : Reg → Word
  initStack : Nat → Word
  initDataFill : Nat → Word

/-- The register file at reset: 0 in register 0, `STACK_TOP` in register 29, `InitRegs` elsewhere (R41). -/
def Launch.regs (l : Launch) : Vector Word 32 :=
  ((Vector.ofFn fun k : Fin 32 => l.initRegs (BitVec.ofFin k)).set 0 0#32).set 29 Config.stackTop

/-- Data cell `k` at reset: the `k`-th data word, or the fill beyond the loaded data (R32, R41). -/
def Launch.dataWord (l : Launch) (k : Nat) : Word := (l.data[k]?).getD (l.initDataFill k)

/-- Reset (R41, R149). Inputs longer than a capacity are refused (R40, U10); so are parameters that break
R10 (a) or (b), which is the model's choice (DESIGN CHOICE, safe, log 9). -/
def State.launch (l : Launch) : Host.Outcome State Fault Refusal :=
  if ¬ l.params.wf then .refused .parametersOutOfContract
  else if l.params.progCap < l.program.length then .refused .programTooLong
  else if l.params.dataCap < l.data.length then .refused .dataTooLong
  else
    .next
      { params := l.params
        regs := l.regs
        pc := 0
        imem := l.program
        data := Memory.fill l.dataWord l.params.dataCap 0
        stack := Memory.fill l.initStack l.params.stackCap 0
        halted := false
        fault := none
        out := []
        input := l.input }

/-- Put `w` at index `k` of a program, with words of zero in the indexes below it that the program does not have. -/
def placeWord : List Word → Nat → Word → List Word
  | [], 0, w => [w]
  | [], k + 1, w => 0#32 :: placeWord [] k w
  | _ :: ws, 0, w => w :: ws
  | v :: ws, k + 1, w => v :: placeWord ws k w

/-- The program index the loader of `withFetchWord` writes: `pc`, or 0 for a `pc` below the program. -/
def State.loadIndex (s : State) : Nat := s.pc.toNat

end Sys2Proof.Machine
end

