-- ==== Sys2Proof/Machine/Step.lean ====
section
/-! DEFINITION. One pass of the engine's loop (41_engine.md R141): fetch, advance, decode, dispatch. -/

namespace Sys2Proof.Machine

/-- Dispatch of a fetched word, in the state after the default advance: the handler of its mnemonic (R144), the
`unknown` handler for a word in neither lookup table (R98, R219). -/
def execWord (w : Word) (s : State) : Host.Outcome State Fault Refusal :=
  match decodeWord w with
  | some i => exec i s
  | none => .next (reportUnknown w s)

/-- One step (R141). Where the loop condition fails there is no step, and the run's outcome is reported (R146, log 8). -/
def step (s : State) : Host.Outcome State Fault Refusal :=
  match s.nextWord with
  | .error outcome => .fault (.runEnded outcome)
  | .ok w => execWord w s.advance

/-- `s` with the word `w` where the next step fetches: at index `pc` of the loaded program, which grows to hold it. What
keeps the loop from fetching is undone: `halted`, `fault`, a `pc` below the program. It stands for the program
collaborator's load (R36, log 12). -/
def State.withFetchWord (s : State) (nbits w : Nat) : State :=
  { s with
    pc := s.loadIndex
    imem := placeWord s.imem s.loadIndex (BitVec.ofNat 32 (w % 2 ^ nbits))
    halted := false
    fault := none }

end Sys2Proof.Machine
end

