-- ==== Sys2Proof/Machine/Run.lean ====
section
/-! DEFINITION. A run under fuel (41_engine.md R140, R146, R147): steps for as long as the loop condition holds, then
the outcome, with the state the run leaves behind (R153). -/

namespace Sys2Proof.Machine

/-- How a run under fuel came out, with the last state. -/
inductive RunResult where
  /-- The loop condition failed: the outcome of R146. -/
  | ended (outcome : RunOutcome) (last : State)
  /-- A read-integer step waits for an answer (R151). -/
  | waiting (last : State)
  /-- A meaning refused; no meaning of this model does. -/
  | refused (reason : Refusal) (last : State)
  /-- The fuel is spent and the run goes on (R147). -/
  | unfinished (last : State)
  deriving DecidableEq, Repr

/-- At most `fuel` steps from `s` (R147: "A model runs under fuel"). -/
def run : (fuel : Nat) → State → RunResult
  | 0, s => .unfinished s
  | fuel + 1, s =>
    match step s with
    | .next s' => run fuel s'
    | .fault (.runEnded outcome) => .ended outcome s
    | .fault .awaitingInput => .waiting s
    | .refused reason => .refused reason s

/-- The source's two-valued status: whether the outcome is `Success`; a fault reads as failure (R39, D7). -/
def RunOutcome.isSuccess : RunOutcome → Bool
  | .success => true
  | .unsafeTermination | .fault _ => false

end Sys2Proof.Machine
end

