-- ==== Sys2Proof/Safety.lean ====
section
/-! DEFINITION. The invariant of the engine's state, what a step may leave unchanged, and what counts as a safe run, in
the terms the statements use. -/

namespace Sys2Proof.Machine

/-! ### The spec's own readings of a value, in the terms of 00_scope.md, independent of the meanings -/

/-- `toS32(v)`: `v` if `v < 2^31`, else `v - 2^32` (R12). -/
def toS32 (v : Word) : Int := if v.toNat < 2 ^ 31 then v.toNat else (v.toNat : Int) - 2 ^ 32

/-- `sext_16(v)`: `v` if bit 15 is clear, else `v - 65536` (R13). -/
def signed16 (v : Imm16) : Int := if v.toNat < 2 ^ 15 then v.toNat else (v.toNat : Int) - 65536

/-- Every word that agrees with `pattern` under `mask` decodes to the instruction `mk` makes of it: what a row of
spec/opcode_table.json says. -/
def RowSelects (mask pattern : Word) (mk : Word → Instr) : Prop :=
  ∀ w, w &&& mask = pattern → decodeWord w = some (mk w)

/-- The two forms of `syscall` (R210). -/
def IsSyscall (i : Instr) : Prop := i = .syscall ∨ ∃ rs rt rd, i = .syscallR rs rt rd

/-- The register an instruction names as its destination (R22). -/
def destination : Instr → Option Reg
  | .add _ _ rd | .sub _ _ rd | .and _ _ rd | .or _ _ rd | .slt _ _ rd => some rd
  | .addiu _ rt _ | .andi _ rt _ | .ori _ rt _ | .lui _ rt _ | .lw _ rt _ => some rt
  | .beq .. | .bne .. | .j .. | .sw .. | .syscall | .syscallR .. => none

/-- The registers an instruction may write, by R22's table: its destination; `syscall` writes `x[2]` when `x[2]` was
5. -/
def MayWrite (i : Instr) (s : State) (q : Reg) : Prop :=
  destination i = some q ∨ (IsSyscall i ∧ q = 2#5 ∧ s.readReg 2#5 = 5#32)

/-! ### The invariant -/

/-- What the spec says of an event's value: `PrintInt` carries a signed 32-bit integer and `PrintChar` a value "never 0"
(R37); `ReportUnknown` carries a word whose mnemonic is `unknown` (R219). -/
def Event.wf : Event → Prop
  | .printInt n => -2 ^ 31 ≤ n ∧ n < 2 ^ 31
  | .printChar c => c ≠ 0#32
  | .reportUnknown w => decodeWord w = none

/-- The capacity of a segment (R9). -/
def Region.cap (p : Params) : Region → Nat
  | .stack => p.stackCap
  | .data => p.dataCap

/-- A recorded fault names an index outside its segment (R52 to R54). -/
def AddressFault.wf (p : Params) (f : AddressFault) : Prop := f.index < 0 ∨ (f.region.cap p : Int) ≤ f.index

/-- The invariant every step keeps and every launch meets. -/
structure State.Inv (s : State) : Prop where
  /-- R10 (a), (b). -/
  params_wf : s.params.wf
  /-- R10 (d). -/
  program_fits : s.imem.length ≤ s.params.progCap
  data_wf : s.data.wf
  data_within : s.data.within s.params.dataCap
  stack_wf : s.stack.wf
  stack_within : s.stack.within s.params.stackCap
  /-- R23: under `ZERO_HARDWIRED` register 0 holds 0. -/
  zero_reg : s.params.zeroHardwired = true → s.regs[0] = 0#32
  /-- R146: "Cases 1 and 2 cannot both hold". -/
  one_end : s.halted = true → s.fault = none
  fault_wf : ∀ f, s.fault = some f → f.wf s.params
  events_wf : ∀ e ∈ s.out, e.wf

/-! ### Frames -/

/-- Everything but the registers, `pc`, the stack segment, `halted`, `fault`, `Out` and the input is as before: what no
step of any kind changes (R31, R33). -/
structure SameFixed (s t : State) : Prop where
  params : t.params = s.params
  imem : t.imem = s.imem
  data : t.data = s.data
  dataReads : ∀ k, t.dataRead k = s.dataRead k

/-- Every stack cell reads as before, at every address. -/
structure SameStack (s t : State) : Prop where
  stack : t.stack = s.stack
  stackReads : ∀ a, t.memRead a = s.memRead a

/-- The control state, the events and the input are as before. -/
structure SameControl (s t : State) : Prop where
  halted : t.halted = s.halted
  fault : t.fault = s.fault
  out : t.out = s.out
  input : t.input = s.input

/-- Every register reads as before. -/
def SameRegs (s t : State) : Prop := ∀ q, t.readReg q = s.readReg q

/-- Every register but `d` reads as before. -/
def SameRegsBut (d : Reg) (s t : State) : Prop := ∀ q, q ≠ d → t.readReg q = s.readReg q

/-- The outcome is a next state in which register `d` reads `v` (0, where a write to it is discarded: R23) and nothing
else differs from `s` (R169). -/
def WritesRegister (s : State) (o : Host.Outcome State Fault Refusal) (d : Reg) (v : Word) : Prop :=
  ∃ t, o = .next t ∧
    t.readReg d = (if s.params.zeroHardwired = true ∧ d = 0#5 then 0#32 else v) ∧
    SameRegsBut d s t ∧ t.pc = s.pc ∧ SameFixed s t ∧ SameStack s t ∧ SameControl s t

/-- The outcome is a next state in which `pc` holds `target` and nothing else differs from `s` (R194). -/
def SetsPc (s : State) (o : Host.Outcome State Fault Refusal) (target : Int) : Prop :=
  ∃ t, o = .next t ∧ t.pc = target ∧ SameRegs s t ∧ SameFixed s t ∧ SameStack s t ∧ SameControl s t

/-- The outcome is a next state in which the fault is recorded and nothing else differs from `s` (R234). -/
def RecordsFault (s : State) (o : Host.Outcome State Fault Refusal) (f : AddressFault) : Prop :=
  ∃ t, o = .next t ∧ t.fault = some f ∧ SameRegs s t ∧ t.pc = s.pc ∧ SameFixed s t ∧ SameStack s t ∧
    t.halted = s.halted ∧ t.out = s.out ∧ t.input = s.input

/-- The outcome is a next state in which the events `es` are appended to `Out`, `fault` is `f` and nothing else differs
from `s` (R37). -/
def Emits (s : State) (o : Host.Outcome State Fault Refusal) (es : List Event) (f : Option AddressFault) : Prop :=
  ∃ t, o = .next t ∧ t.out = s.out ++ es ∧ t.fault = f ∧ SameRegs s t ∧ t.pc = s.pc ∧ SameFixed s t ∧
    SameStack s t ∧ t.halted = s.halted ∧ t.input = s.input

/-! ### Runs -/

/-- A run from `s` that ends without an address fault, whatever its fuel (R234, R236). -/
def NeverFaults (s : State) : Prop := ∀ fuel cause last, run fuel s ≠ .ended (.fault cause) last

/-- A run from `s` that reaches the terminate service (R146). -/
def EndsInSuccess (s : State) : Prop := ∃ fuel last, run fuel s = .ended .success last

/-- The last state of a run under fuel. -/
def RunResult.last : RunResult → State
  | .ended _ s | .waiting s | .refused _ s | .unfinished s => s

end Sys2Proof.Machine
end

