-- ==== Sys2Proof/Certificates/Slice0/Obligations.lean ====
section
/-! DEFINITION. The statements for the provers, in the order of OBLIGATIONS.json; each docstring names the rule of spec/
it formalises. -/

open Sys2Proof Sys2Proof.Machine

/-! ### The decoder and the encoder -/

/-- O1. R121, with R81's tests in order and R82 to R89's shifts and masks: what each format's value holds. -/
def Obligations.DecodeFollowsTestsAndSlices : Prop :=
  ∀ w : Word,
    (w = 0x0000000C#32 → decode w = .syscall 0#6 0x0C#6 .syscall) ∧
    (w ≠ 0x0000000C#32 → w >>> 26 = 0#32 →
      ∃ rs rt rd funct, decode w = .r 0#6 rs rt rd 0#5 funct (functTable funct) ∧
        rs.setWidth 32 = (w >>> 21) &&& 0x1F#32 ∧ rt.setWidth 32 = (w >>> 16) &&& 0x1F#32 ∧
        rd.setWidth 32 = (w >>> 11) &&& 0x1F#32 ∧ funct.setWidth 32 = w &&& 0x3F#32) ∧
    (w >>> 26 = 2#32 →
      ∃ target, decode w = .j 2#6 target (opcodeTable 2#6) ∧ target.setWidth 32 = w &&& 0x03FFFFFF#32) ∧
    (w >>> 26 ≠ 0#32 → w >>> 26 ≠ 2#32 →
      ∃ opcode rs rt imm, decode w = .i opcode rs rt imm (opcodeTable opcode) ∧
        opcode.setWidth 32 = w >>> 26 ∧
        rs.setWidth 32 = (w >>> 21) &&& 0x1F#32 ∧ rt.setWidth 32 = (w >>> 16) &&& 0x1F#32 ∧
        imm.setWidth 32 = w &&& 0xFFFF#32)

/-- O2. R95 to R97: which table a format's mnemonic comes from, and every entry of the two tables. -/
def Obligations.MnemonicComesFromTables : Prop :=
  (∀ w : Word, (decode w).mnemonic =
    if (decode w).format = .r ∨ (decode w).format = .syscall then functTable (w.extractLsb' 0 6)
    else opcodeTable (w.extractLsb' 26 6)) ∧
  (∀ f : BitVec 6,
    (functTable f = .add ↔ f = 0x20#6) ∧ (functTable f = .and ↔ f = 0x24#6) ∧ (functTable f = .or ↔ f = 0x25#6) ∧
    (functTable f = .slt ↔ f = 0x2A#6) ∧ (functTable f = .sub ↔ f = 0x22#6) ∧ (functTable f = .syscall ↔ f = 0x0C#6) ∧
    (functTable f = .unknown ↔ f ∉ [0x20#6, 0x24#6, 0x25#6, 0x2A#6, 0x22#6, 0x0C#6])) ∧
  (∀ o : BitVec 6,
    (opcodeTable o = .addiu ↔ o = 0x09#6) ∧ (opcodeTable o = .andi ↔ o = 0x0C#6) ∧ (opcodeTable o = .beq ↔ o = 0x04#6) ∧
    (opcodeTable o = .bne ↔ o = 0x05#6) ∧ (opcodeTable o = .j ↔ o = 0x02#6) ∧ (opcodeTable o = .lui ↔ o = 0x0F#6) ∧
    (opcodeTable o = .lw ↔ o = 0x23#6) ∧ (opcodeTable o = .ori ↔ o = 0x0D#6) ∧ (opcodeTable o = .sw ↔ o = 0x2B#6) ∧
    (opcodeTable o = .unknown ↔
      o ∉ [0x09#6, 0x0C#6, 0x04#6, 0x05#6, 0x02#6, 0x0F#6, 0x23#6, 0x0D#6, 0x2B#6]))

/-- O3. A word holds no instruction of the table exactly when its mnemonic is `unknown` (30_encoding.md section 4); the
split of the decoder's value into `Instr` or none is the model's (log 11). -/
def Obligations.NoInstructionMeansUnknown : Prop :=
  ∀ w : Word, (decodeWord w = none ↔ (decode w).mnemonic = .unknown) ∧
    ∀ i, decodeWord w = some i → i.mnemonic = (decode w).mnemonic

/-- O4. The round trip of 30_encoding.md section 5: no operand is dropped, for every instruction and every operand. -/
def Obligations.DecodeOfEncodeIsIdentity : Prop :=
  ∀ i : Instr, decodeWord (encode i) = some i ∧ (decode (encode i)).wellFormed = true

/-- O5. The other direction (30_encoding.md section 5): encoding what a word decodes to gives the word back exactly when
the bits the decoder does not read are as the encoder writes them: zero, but for an `R`-format `syscall` with all
fields zero (log 5). This is the model's lossless encoder, which keeps `lui`'s `rs` and a `syscall`'s fields (log 5); O58
says the same of the spec's canonical one. -/
def Obligations.EncodeOfDecodeIsIdentityOnUnreadZero : Prop :=
  ∀ (w : Word) (i : Instr), decodeWord w = some i →
    (encode i = w ↔
      match i with
      | .add .. | .sub .. | .and .. | .or .. | .slt .. => (w >>> 6) &&& 0x1F#32 = 0#32
      | .syscallR rs rt rd => (w >>> 6) &&& 0x1F#32 = if rs = 0#5 ∧ rt = 0#5 ∧ rd = 0#5 then 1#32 else 0#32
      | .syscall | .j .. | .beq .. | .bne .. | .addiu .. | .andi .. | .ori .. | .lui .. | .lw .. | .sw .. => True)

/-- O6. The encoding formulas of R103, by shift and or. -/
def Obligations.EncodersAreShiftFormulas : Prop :=
  (∀ (funct : BitVec 6) (rs rt rd : Reg), encR funct rs rt rd 0#5 =
    (rs.setWidth 32 <<< 21) ||| (rt.setWidth 32 <<< 16) ||| (rd.setWidth 32 <<< 11) ||| funct.setWidth 32) ∧
  (∀ (opcode : BitVec 6) (rs rt : Reg) (imm : Imm16), encI opcode rs rt imm =
    (opcode.setWidth 32 <<< 26) ||| (rs.setWidth 32 <<< 21) ||| (rt.setWidth 32 <<< 16) ||| imm.setWidth 32) ∧
  (∀ target : Target26, encJ target = (2#32 <<< 26) ||| target.setWidth 32)

/-- O7. R125: the field identities of every word. -/
def Obligations.FieldIdentitiesHold : Prop :=
  ∀ w : Word,
    (opcodeOf w).toNat * 2 ^ 26 + (rsOf w).toNat * 2 ^ 21 + (rtOf w).toNat * 2 ^ 16 + (rdOf w).toNat * 2 ^ 11
      + (w.extractLsb' 6 5).toNat * 2 ^ 6 + (functOf w).toNat = w.toNat ∧
    (immOf w).toNat = (rdOf w).toNat * 2 ^ 11 + (w.extractLsb' 6 5).toNat * 2 ^ 6 + (functOf w).toNat ∧
    (targetOf w).toNat = (rsOf w).toNat * 2 ^ 21 + (rtOf w).toNat * 2 ^ 16 + (immOf w).toNat

/-- O8. Words written out in 95_test_vectors.md (S4 and the DEC series) decode to the instructions they stand for. -/
def Obligations.ListedWordsDecode : Prop :=
  decodeTableWord 32 0x02329820 = some (.add 17 18 19) ∧ decodeTableWord 32 0x02329822 = some (.sub 17 18 19) ∧
  decodeTableWord 32 0x02329824 = some (.and 17 18 19) ∧ decodeTableWord 32 0x02329825 = some (.or 17 18 19) ∧
  decodeTableWord 32 0x0232982A = some (.slt 17 18 19) ∧ decodeTableWord 32 0x0000000C = some .syscall ∧
  decodeTableWord 32 0x2632BEEF = some (.addiu 17 18 0xBEEF) ∧ decodeTableWord 32 0x3232BEEF = some (.andi 17 18 0xBEEF) ∧
  decodeTableWord 32 0x3632BEEF = some (.ori 17 18 0xBEEF) ∧ decodeTableWord 32 0x3C12BEEF = some (.lui 0 18 0xBEEF) ∧
  decodeTableWord 32 0x1232BEEF = some (.beq 17 18 0xBEEF) ∧ decodeTableWord 32 0x1632BEEF = some (.bne 17 18 0xBEEF) ∧
  decodeTableWord 32 0x8E32BEEF = some (.lw 17 18 0xBEEF) ∧ decodeTableWord 32 0xAE32BEEF = some (.sw 17 18 0xBEEF) ∧
  decodeTableWord 32 0x08123456 = some (.j 0x123456) ∧ decodeTableWord 32 0x0000004C = some (.syscallR 0 0 0) ∧
  decodeTableWord 32 0x010957E0 = some (.add 8 9 10) ∧ decodeTableWord 32 0x0C100000 = none ∧
  decodeTableWord 32 0x00000000 = none

/-- O9. Every decoder value is well formed: the constants of its format and only the mnemonics R122 gives it. -/
def Obligations.DecodedValuesAreWellFormed : Prop :=
  ∀ w : Word, (decode w).wellFormed = true

/-- O10. Bits that do not affect execution (R87, R100, R101): bits 10 to 6 of the five format-`R` operations, `rs` of
`lui`, and every bit of an opcode-0 word with function code `0x0C` but those two fields. -/
def Obligations.UnreadBitsDoNotAffectExecution : Prop :=
  (∀ (funct : BitVec 6) (rs rt rd : Reg) (u : BitVec 5), funct ∈ [0x20#6, 0x22#6, 0x24#6, 0x25#6, 0x2A#6] →
    decode (encR funct rs rt rd u) = decode (encR funct rs rt rd 0#5)) ∧
  (∀ (rs rs' rt : Reg) (imm : Imm16) (s : State), exec (.lui rs rt imm) s = exec (.lui rs' rt imm) s) ∧
  (∀ (w : Word) (s : State), opcodeOf w = 0#6 → functOf w = 0x0C#6 → execWord w s = execWord 0x0000000C#32 s)

/-! ### Arithmetic and logic: the result, the frame and the encoding of each (42_arith_logic.md) -/

/-- O11. R160. -/
def Obligations.AddWritesSum : Prop :=
  RowSelects 0xFC00003F#32 0x00000020#32 (fun w => .add (rsOf w) (rtOf w) (rdOf w)) ∧
  ∀ (s : State) (rs rt rd : Reg), WritesRegister s (exec (.add rs rt rd) s) rd
    (BitVec.ofNat 32 ((s.readReg rs).toNat + (s.readReg rt).toNat))

/-- O12. R166. -/
def Obligations.SubWritesDifference : Prop :=
  RowSelects 0xFC00003F#32 0x00000022#32 (fun w => .sub (rsOf w) (rtOf w) (rdOf w)) ∧
  ∀ (s : State) (rs rt rd : Reg), WritesRegister s (exec (.sub rs rt rd) s) rd
    (BitVec.ofInt 32 ((s.readReg rs).toNat - (s.readReg rt).toNat))

/-- O13. R162, bit by bit. -/
def Obligations.AndWritesBitwiseAnd : Prop :=
  RowSelects 0xFC00003F#32 0x00000024#32 (fun w => .and (rsOf w) (rtOf w) (rdOf w)) ∧
  ∀ (s : State) (rs rt rd : Reg), ∃ v : Word, WritesRegister s (exec (.and rs rt rd) s) rd v ∧
    ∀ k < 32, v.getLsbD k = ((s.readReg rs).getLsbD k && (s.readReg rt).getLsbD k)

/-- O14. R163, bit by bit. -/
def Obligations.OrWritesBitwiseOr : Prop :=
  RowSelects 0xFC00003F#32 0x00000025#32 (fun w => .or (rsOf w) (rtOf w) (rdOf w)) ∧
  ∀ (s : State) (rs rt rd : Reg), ∃ v : Word, WritesRegister s (exec (.or rs rt rd) s) rd v ∧
    ∀ k < 32, v.getLsbD k = ((s.readReg rs).getLsbD k || (s.readReg rt).getLsbD k)

/-- O15. R167: the comparison of the two signed values. -/
def Obligations.SltWritesSignedComparison : Prop :=
  RowSelects 0xFC00003F#32 0x0000002A#32 (fun w => .slt (rsOf w) (rtOf w) (rdOf w)) ∧
  ∀ (s : State) (rs rt rd : Reg), WritesRegister s (exec (.slt rs rt rd) s) rd
    (if toS32 (s.readReg rs) < toS32 (s.readReg rt) then 1#32 else 0#32)

/-- O16. R161: the immediate is zero-extended. -/
def Obligations.AddiuAddsUnsignedImmediate : Prop :=
  RowSelects 0xFC000000#32 0x24000000#32 (fun w => .addiu (rsOf w) (rtOf w) (immOf w)) ∧
  ∀ (s : State) (rs rt : Reg) (imm : Imm16), WritesRegister s (exec (.addiu rs rt imm) s) rt
    (BitVec.ofNat 32 ((s.readReg rs).toNat + imm.toNat))

/-- O17. R164: bit by bit, the high half cleared. -/
def Obligations.AndiClearsHighHalf : Prop :=
  RowSelects 0xFC000000#32 0x30000000#32 (fun w => .andi (rsOf w) (rtOf w) (immOf w)) ∧
  ∀ (s : State) (rs rt : Reg) (imm : Imm16), ∃ v : Word, WritesRegister s (exec (.andi rs rt imm) s) rt v ∧
    (∀ k < 16, v.getLsbD k = ((s.readReg rs).getLsbD k && imm.getLsbD k)) ∧
    ∀ k, 16 ≤ k → k < 32 → v.getLsbD k = false

/-- O18. R165: bit by bit, the high half passed unchanged. -/
def Obligations.OriKeepsHighHalf : Prop :=
  RowSelects 0xFC000000#32 0x34000000#32 (fun w => .ori (rsOf w) (rtOf w) (immOf w)) ∧
  ∀ (s : State) (rs rt : Reg) (imm : Imm16), ∃ v : Word, WritesRegister s (exec (.ori rs rt imm) s) rt v ∧
    (∀ k < 16, v.getLsbD k = ((s.readReg rs).getLsbD k || imm.getLsbD k)) ∧
    ∀ k, 16 ≤ k → k < 32 → v.getLsbD k = (s.readReg rs).getLsbD k

/-- O19. R170: the immediate above 16 zero bits, whatever `rs` names. -/
def Obligations.LuiWritesUpperImmediate : Prop :=
  RowSelects 0xFC000000#32 0x3C000000#32 (fun w => .lui (rsOf w) (rtOf w) (immOf w)) ∧
  ∀ (s : State) (rs rt : Reg) (imm : Imm16), WritesRegister s (exec (.lui rs rt imm) s) rt
    (BitVec.ofNat 32 (imm.toNat * 2 ^ 16))

/-! ### Control transfer (43_control_transfer.md); `s.pc` is the default advance `k + 1` -/

/-- O20. R190. -/
def Obligations.BeqBranchesWhenEqual : Prop :=
  RowSelects 0xFC000000#32 0x10000000#32 (fun w => .beq (rsOf w) (rtOf w) (immOf w)) ∧
  ∀ (s : State) (rs rt : Reg) (imm : Imm16), SetsPc s (exec (.beq rs rt imm) s)
    (if s.readReg rs = s.readReg rt then s.pc + signed16 imm else s.pc)

/-- O21. R191. -/
def Obligations.BneBranchesWhenDifferent : Prop :=
  RowSelects 0xFC000000#32 0x14000000#32 (fun w => .bne (rsOf w) (rtOf w) (immOf w)) ∧
  ∀ (s : State) (rs rt : Reg) (imm : Imm16), SetsPc s (exec (.bne rs rt imm) s)
    (if s.readReg rs ≠ s.readReg rt then s.pc + signed16 imm else s.pc)

/-- O22. R193, with `TEXT_BASE` a multiple of 4 (R10 (a)): the byte address of the new `pc` is exactly `T`. -/
def Obligations.JumpGoesToTarget : Prop :=
  RowSelects 0xFC000000#32 0x08000000#32 (fun w => .j (targetOf w)) ∧
  ∀ (s : State) (target : Target26), 4 ∣ s.params.textBase →
    ∃ p : Int, SetsPc s (exec (.j target) s) p ∧
      s.params.textBase + 4 * p =
        ((s.params.textBase + 4 * s.pc) % 2 ^ 32) / 2 ^ 28 * 2 ^ 28 + 4 * target.toNat

/-- O23. What R193 says of the default `TEXT_BASE` with `PROG_CAP < 0x03F00000`: the new `pc` is the target less
`0x00100000`, at every index of a loadable program. The default is the spec's choice (D1). -/
def Obligations.JumpWithDefaultTextBase : Prop :=
  ∀ (s : State) (target : Target26), s.params.textBase = 0x00400000 → s.params.progCap < 0x03F00000 →
    0 ≤ s.pc → s.pc ≤ s.params.progCap →
    SetsPc s (exec (.j target) s) (target.toNat - 0x00100000)

/-! ### Load and store (44_load_store.md, 20_memory.md) -/

/-- O24. R201 with R200, R51 and R52: in range the cell's word goes to `rt`; out of range the fault is recorded and
nothing else changes. -/
def Obligations.LwLoadsStackCell : Prop :=
  RowSelects 0xFC000000#32 0x8C000000#32 (fun w => .lw (rsOf w) (rtOf w) (immOf w)) ∧
  ∀ (s : State) (rs rt : Reg) (imm : Imm16) (k : Int), k = 0x7FFFEFFC - ((s.readReg rs).toNat + imm.toNat : Int) →
    (0 ≤ k → k < s.params.stackCap →
      WritesRegister s (exec (.lw rs rt imm) s) rt (s.stack.read k.toNat)) ∧
    (k < 0 ∨ s.params.stackCap ≤ k → RecordsFault s (exec (.lw rs rt imm) s) ⟨.stack, k⟩)

/-- O25. R202 with R200, R51 and R53: in range exactly one cell changes, the one whose address the meaning computes; out
of range the fault is recorded and no cell changes. The canonical form of the stack segment is a premise, an invariant
of the model (O45). -/
def Obligations.SwStoresStackCell : Prop :=
  RowSelects 0xFC000000#32 0xAC000000#32 (fun w => .sw (rsOf w) (rtOf w) (immOf w)) ∧
  ∀ (s : State) (rs rt : Reg) (imm : Imm16) (a : Int), a = effectiveAddress (s.readReg rs) imm → s.stack.wf →
    a = (s.readReg rs).toNat + imm.toNat ∧
    (0 ≤ 0x7FFFEFFC - a → 0x7FFFEFFC - a < s.params.stackCap →
      ∃ t, exec (.sw rs rt imm) s = .next t ∧
        t.stack.read (0x7FFFEFFC - a).toNat = s.readReg rt ∧
        (∀ k, k ≠ (0x7FFFEFFC - a).toNat → t.stack.read k = s.stack.read k) ∧
        (∀ b, b ≠ a → t.memRead b = s.memRead b) ∧
        SameRegs s t ∧ t.pc = s.pc ∧ SameFixed s t ∧ SameControl s t) ∧
    (0x7FFFEFFC - a < 0 ∨ s.params.stackCap ≤ 0x7FFFEFFC - a →
      RecordsFault s (exec (.sw rs rt imm) s) ⟨.stack, 0x7FFFEFFC - a⟩)

/-- O26. Single-agent memory (20_memory.md section 7, rules (b) and (c) of R62): after a write to an address, that
address reads the word written and every other address, one apart included, reads as before. -/
def Obligations.StackReadSeesLastWrite : Prop :=
  ∀ (s s' : State) (a : Int) (v : Word), s.stack.wf → s.memWrite a v = .ok s' →
    s'.stack.wf ∧ ∀ b, s'.memRead b = if b = a then .ok v else s.memRead b

/-! ### The syscall services (45_syscall.md), for both forms of the instruction -/

/-- O27. R212. -/
def Obligations.PrintIntegerEmitsSignedValue : Prop :=
  ∀ (s : State) (i : Instr), IsSyscall i → s.readReg 2#5 = 1#32 →
    Emits s (exec i s) [.printInt (toS32 (s.readReg 4#5))] s.fault

/-- O28. R213: with the cursor at `k`, a run of `n` non-zero cells in range is printed, in order; at a zero cell the
service ends, and at an index outside the segment it faults; one of the two ends every string. -/
def Obligations.PrintStringPrintsUpToZero : Prop :=
  ∀ (s : State) (i : Instr) (k : Int), IsSyscall i → s.readReg 2#5 = 4#32 →
    k = (s.readReg 4#5).toNat - (s.params.dataBase : Int) →
    let inside (j : Int) : Prop := 0 ≤ j ∧ j < s.params.dataCap
    let chars (n : Nat) : Prop := ∀ j : Nat, j < n → inside (k + j) ∧ s.data.read (k + j).toNat ≠ 0#32
    let events (n : Nat) : List Event := (List.range n).map fun j : Nat => .printChar (s.data.read (k + j).toNat)
    (∀ n : Nat, chars n → inside (k + n) → s.data.read (k + n).toNat = 0#32 → Emits s (exec i s) (events n) s.fault) ∧
    (∀ n : Nat, chars n → ¬ inside (k + n) → Emits s (exec i s) (events n) (some ⟨.data, k + n⟩)) ∧
    (∃ n : Nat, chars n ∧ (¬ inside (k + n) ∨ s.data.read (k + n).toNat = 0#32))

/-- O29. R215: the oldest answer goes to `x[2]`, and nothing else changes. That an unanswered request stops the step is
R151's wait; the stop and its name are the model's form of it (log 7). -/
def Obligations.ReadIntegerTakesAnswer : Prop :=
  ∀ (s : State) (i : Instr), IsSyscall i → s.readReg 2#5 = 5#32 →
    (∀ n rest, s.input = n :: rest →
      ∃ t, exec i s = .next t ∧ t.readReg 2#5 = n ∧ t.input = rest ∧ SameRegsBut 2#5 s t ∧ t.pc = s.pc ∧
        SameFixed s t ∧ SameStack s t ∧ t.halted = s.halted ∧ t.fault = s.fault ∧ t.out = s.out) ∧
    (s.input = [] → exec i s = .fault .awaitingInput)

/-- O30. R216: `halted` is set, nothing else changes, and the run then ends with `Success` (reported as log 8 says). -/
def Obligations.TerminateHalts : Prop :=
  ∀ (s : State) (i : Instr), IsSyscall i → s.readReg 2#5 = 10#32 →
    ∃ t, exec i s = .next t ∧ t.halted = true ∧ SameRegs s t ∧ t.pc = s.pc ∧ SameFixed s t ∧ SameStack s t ∧
      t.fault = s.fault ∧ t.out = s.out ∧ t.input = s.input ∧ step t = .fault (.runEnded .success)

/-- O31. R217: any other code changes nothing at all; all 32 bits of `x[2]` are compared. -/
def Obligations.OtherCodesDoNothing : Prop :=
  ∀ (s : State) (i : Instr), IsSyscall i → (s.readReg 2#5).toNat ∉ [1, 4, 5, 10] → exec i s = .next s

/-- O32. R100's words of function code `0x0C`: the literal is `syscall`, every other is its format-`R` form. -/
def Obligations.SyscallRowsSelect : Prop :=
  decodeWord 0x0000000C#32 = some .syscall ∧
  ∀ w : Word, w &&& 0xFC00003F#32 = 0x0000000C#32 → w ≠ 0x0000000C#32 →
    decodeWord w = some (.syscallR (rsOf w) (rtOf w) (rdOf w))

/-- O33. The frame of `syscall` (R218's write, event and fault columns, and its last sentence). -/
def Obligations.SyscallFrameBySummary : Prop :=
  ∀ (s t : State) (i : Instr), IsSyscall i → exec i s = .next t →
    SameFixed s t ∧ SameStack s t ∧ t.pc = s.pc ∧ SameRegsBut 2#5 s t ∧
    (s.readReg 2#5 ≠ 5#32 → SameRegs s t ∧ t.input = s.input) ∧
    (s.readReg 2#5 ≠ 10#32 → t.halted = s.halted) ∧
    (s.readReg 2#5 ≠ 4#32 → t.fault = s.fault) ∧
    (s.readReg 2#5 ≠ 1#32 → s.readReg 2#5 ≠ 4#32 → t.out = s.out)

/-- O34. R219 and R145: an `unknown` word is reported and costs one step; nothing else changes. -/
def Obligations.UnknownWordIsReportedAndSkipped : Prop :=
  ∀ (s : State) (w : Word), s.running → s.imem[s.pc.toNat]? = some w → (decode w).mnemonic = .unknown →
    ∃ t, step s = .next t ∧ t.out = s.out ++ [.reportUnknown w] ∧ t.pc = s.pc + 1 ∧ SameRegs s t ∧ SameFixed s t ∧
      SameStack s t ∧ t.halted = s.halted ∧ t.fault = s.fault ∧ t.input = s.input

/-! ### The engine (41_engine.md) -/

/-- O35. R141: while the loop condition holds, a step fetches the word at `pc`, advances `pc` by one and executes what
the word decodes to; where it fails there is no step (`runEnded` is the model's form of that, log 8). -/
def Obligations.StepRunsDecodedInstruction : Prop :=
  ∀ s : State,
    (∀ w i, 0 ≤ s.pc → s.pc < s.imem.length → s.halted = false → s.fault = none →
      s.imem[s.pc.toNat]? = some w → decodeWord w = some i → step s = exec i { s with pc := s.pc + 1 }) ∧
    (∀ w, 0 ≤ s.pc → s.pc < s.imem.length → s.halted = false → s.fault = none →
      s.imem[s.pc.toNat]? = some w → decodeWord w = none →
      step s = .next (reportUnknown w { s with pc := s.pc + 1 })) ∧
    (¬(0 ≤ s.pc ∧ s.pc < s.imem.length ∧ s.halted = false ∧ s.fault = none) → ∃ o, step s = .fault (.runEnded o))

/-- O36. R146: the outcome of a run that has ended, in the rule's order (`runEnded` is the model's form, log 8). -/
def Obligations.EndedRunReportsOutcome : Prop :=
  ∀ s : State,
    (s.halted = true → step s = .fault (.runEnded .success)) ∧
    (∀ c, s.halted = false → s.fault = some c → step s = .fault (.runEnded (.fault c))) ∧
    (s.halted = false → s.fault = none → (s.pc < 0 ∨ s.imem.length ≤ s.pc) →
      step s = .fault (.runEnded .unsafeTermination))

/-- O37. The word placed by `withFetchWord` is the one the next step runs (log 12: the model's loader). -/
def Obligations.PlacedWordRunsNext : Prop :=
  ∀ (s : State) (w : Word), step (s.withFetchWord 32 w.toNat) = execWord w (s.withFetchWord 32 w.toNat).advance

/-- O38. R148: a launch with no instruction takes no step and its outcome is `UnsafeTermination`
(reported by `runEnded`, the model's form, log 8). -/
def Obligations.EmptyProgramEndsAtOnce : Prop :=
  ∀ (l : Launch) (s : State), l.program = [] → State.launch l = .next s →
    step s = .fault (.runEnded .unsafeTermination) ∧ ∀ fuel, run (fuel + 1) s = .ended .unsafeTermination s

/-- O39. R41 and R149: the state after reset, for every launch in the contract and any values of what the spec leaves
unspecified. -/
def Obligations.LaunchMakesResetState : Prop :=
  ∀ l : Launch, l.params.wf → l.program.length ≤ l.params.progCap → l.data.length ≤ l.params.dataCap →
    ∃ s, State.launch l = .next s ∧
      s.readReg 0#5 = 0#32 ∧ s.readReg 29#5 = 0x7FFFEFFC#32 ∧
      (∀ r, r ≠ 0#5 → r ≠ 29#5 → s.readReg r = l.initRegs r) ∧
      s.pc = 0 ∧ s.halted = false ∧ s.fault = none ∧ s.out = [] ∧ s.imem = l.program ∧
      (∀ k v, l.data[k]? = some v → s.data.read k = v) ∧
      (∀ k, l.data.length ≤ k → k < l.params.dataCap → s.data.read k = l.initDataFill k) ∧
      (∀ k < l.params.stackCap, s.stack.read k = l.initStack k) ∧
      s.params = l.params ∧ s.input = l.input

/-- O40. Which launches are refused. That a program or data input longer than its capacity is refused is R40's (U10); that
parameters which break R10 (a) or (b) are refused too, and the refusals' names, are the model's choice (log 9). -/
def Obligations.LaunchOutOfContractIsRefused : Prop :=
  ∀ l : Launch,
    (∃ r, State.launch l = .refused r) ↔
      ¬(l.params.wf ∧ l.program.length ≤ l.params.progCap ∧ l.data.length ≤ l.params.dataCap)

/-- O41. `State.reset` is one of the spec's launches: the one with the default parameters, nothing loaded, and the
model's named value (log 2, log 3, log 4) wherever the spec leaves a reset value open. -/
def Obligations.ResetIsOneLaunch : Prop :=
  State.launch
    { params := Config.defaultParams, program := [], data := [], input := []
      initRegs := fun _ => Config.unspecifiedWord
      initStack := fun _ => Config.unspecifiedWord
      initDataFill := fun _ => Config.unspecifiedWord } = .next State.reset

/-! ### Invariants and whole-machine rules -/

/-- O42. The invariant holds at `State.reset`. -/
def Obligations.ResetMeetsInvariant : Prop := State.reset.Inv

/-- O43. The invariant holds after every launch. -/
def Obligations.LaunchMeetsInvariant : Prop :=
  ∀ (l : Launch) (s : State), State.launch l = .next s → s.Inv

/-- O44. Every run from a launch keeps the invariant, whatever the program, the input and the fuel. -/
def Obligations.RunFromLaunchKeepsInvariant : Prop :=
  ∀ (l : Launch) (s : State) (fuel : Nat), State.launch l = .next s → (run fuel s).last.Inv

/-- O45. Every step keeps the invariant: the parameters' constraints, the canonical form and bounds of both segments,
register 0, at most one of `halted` and `fault`, faults that name an index out of range, and events as R37 has them. -/
def Obligations.StepKeepsInvariant : Prop :=
  ∀ s s' : State, s.Inv → step s = .next s' → s'.Inv

/-- O46. R31: no instruction writes the instruction sequence or reads it as data. -/
def Obligations.ProgramIsNeitherWrittenNorRead : Prop :=
  (∀ s t, step s = .next t → t.imem = s.imem) ∧
  (∀ (i : Instr) (s t : State) (p : List Word), exec i s = .next t →
    exec i { s with imem := p } = .next { t with imem := p })

/-- O47. The data segment is constant, and only the print-string service reads it (10_state.md section 4, R33, R35,
R204): any other instruction does the same whatever the segment holds. -/
def Obligations.DataIsReadByPrintStringOnly : Prop :=
  (∀ s t, step s = .next t → t.data = s.data) ∧
  (∀ (i : Instr) (s t : State) (d : Memory), ¬(IsSyscall i ∧ s.readReg 2#5 = 4#32) → exec i s = .next t →
    exec i { s with data := d } = .next { t with data := d })

/-- O48. The stack segment is written by `sw` and read by `lw` only (R50, 10_state.md section 4): any other instruction
leaves it and does the same whatever it holds. -/
def Obligations.StackIsReachedByLoadStoreOnly : Prop :=
  ∀ (i : Instr) (s t : State) (m : Memory),
    (∀ rs rt imm, i ≠ .lw rs rt imm) → (∀ rs rt imm, i ≠ .sw rs rt imm) → exec i s = .next t →
    SameStack s t ∧ exec i { s with stack := m } = .next { t with stack := m }

/-- O49. R26: what `pc` holds after a step of the instruction fetched at `pc`. -/
def Obligations.PcAfterStep : Prop :=
  ∀ (s t : State) (w : Word), s.imem[s.pc.toNat]? = some w → step s = .next t →
    match decodeWord w with
    | some (.beq rs rt imm) => t.pc = s.pc + 1 + if s.readReg rs = s.readReg rt then signed16 imm else 0
    | some (.bne rs rt imm) => t.pc = s.pc + 1 + if s.readReg rs = s.readReg rt then 0 else signed16 imm
    | some (.j target) => t.pc = jumpTarget s.params.textBase (s.pc + 1) target
    | _ => t.pc = s.pc + 1

/-- O50. Only the terminate service sets `halted` (10_state.md section 3, R28), and no step clears it or `fault`. -/
def Obligations.OnlyTerminateHalts : Prop :=
  ∀ s t : State, step s = .next t →
    (t.halted = true ↔
      ∃ w i, s.imem[s.pc.toNat]? = some w ∧ decodeWord w = some i ∧ IsSyscall i ∧ s.readReg 2#5 = 10#32)

/-- O51. R234: a fault is raised by `lw` and `sw` on the stack and by the print-string service on the data segment
only; it names an index out of range; the faulting instruction has changed nothing but `pc`, the fault and the
characters already printed; and the run is over (`runEnded` is the model's form of that, log 8). -/
def Obligations.FaultIsPrecise : Prop :=
  ∀ (s t : State) (f : AddressFault), step s = .next t → t.fault = some f →
    (∃ w i, s.imem[s.pc.toNat]? = some w ∧ decodeWord w = some i ∧
      ((f.region = .stack ∧ t.out = s.out ∧ ((∃ rs rt imm, i = .lw rs rt imm) ∨ ∃ rs rt imm, i = .sw rs rt imm)) ∨
       (f.region = .data ∧ IsSyscall i ∧ s.readReg 2#5 = 4#32 ∧
         ∃ cs : List Word, t.out = s.out ++ cs.map .printChar))) ∧
    f.wf s.params ∧ t.pc = s.pc + 1 ∧ SameRegs s t ∧ SameFixed s t ∧ SameStack s t ∧
    t.halted = s.halted ∧ t.input = s.input ∧ step t = .fault (.runEnded (.fault f))

/-- O52. Events are only appended and answers only taken from the front (41_engine.md section 4, R37, R38, R150). -/
def Obligations.OutputGrowsAndInputShrinks : Prop :=
  ∀ s t : State, step s = .next t → (∃ es, t.out = s.out ++ es) ∧ (∃ taken, s.input = taken ++ t.input)

/-- O53. An instruction answers a next state whatever the state (41_engine.md section 2, R152), but for a read-integer
request with no answer, where the step waits (log 7); no instruction is refused. -/
def Obligations.OnlyUnansweredReadStops : Prop :=
  ∀ (i : Instr) (s : State),
    (¬(IsSyscall i ∧ s.readReg 2#5 = 5#32 ∧ s.input = []) → ∃ t, exec i s = .next t) ∧
    (IsSyscall i → s.readReg 2#5 = 5#32 → s.input = [] → exec i s = .fault .awaitingInput)

/-- O54. R23: a register write, for every register and both values of `ZERO_HARDWIRED`. -/
def Obligations.RegisterWriteRule : Prop :=
  ∀ (s : State) (r : Reg) (v : Word),
    (r ≠ 0#5 → (s.writeReg r v).readReg r = v) ∧
    (s.params.zeroHardwired = true → s.writeReg 0#5 v = s ∧ s.readReg 0#5 = 0#32) ∧
    (s.params.zeroHardwired = false → (s.writeReg 0#5 v).readReg 0#5 = v) ∧
    SameRegsBut r s (s.writeReg r v)

/-- O55. An instruction writes the registers R22's table gives it and no other. -/
def Obligations.RegistersWrittenByTable : Prop :=
  ∀ (i : Instr) (s t : State), exec i s = .next t → ∀ q, ¬ MayWrite i s q → t.readReg q = s.readReg q

/-- O56. Where `ZERO_HARDWIRED` holds, register 0 reads zero before and after every step (R23). -/
def Obligations.ZeroRegisterReadsZero : Prop :=
  ∀ s : State, s.params.zeroHardwired = true →
    s.readReg 0#5 = 0#32 ∧ ∀ t, step s = .next t → t.params.zeroHardwired = true ∧ t.readReg 0#5 = 0#32

/-- O57. R153 with R146, over a whole run (41_engine.md section 3): a run under fuel ends only in a state where the loop
condition fails, with the outcome that state gives; more fuel leads to the same end; and from first to last state the
parameters, the program and the data segment are the same, events were only appended and answers only taken from the
front. -/
def Obligations.RunEndsWhereLoopConditionFails : Prop :=
  ∀ (fuel more : Nat) (s last : State) (o : RunOutcome), run fuel s = .ended o last →
    (match o with
      | .success => last.halted = true
      | .fault cause => last.halted = false ∧ last.fault = some cause
      | .unsafeTermination =>
        last.halted = false ∧ last.fault = none ∧ (last.pc < 0 ∨ last.imem.length ≤ last.pc)) ∧
    run (fuel + more) s = .ended o last ∧
    last.params = s.params ∧ last.imem = s.imem ∧ last.data = s.data ∧
    (∃ es, last.out = s.out ++ es) ∧ ∃ taken, s.input = taken ++ last.input

/-- O58. R103: the encoding functions and their formulas, what the decoder makes of each one's words, the caution about
function code `0x0C`, which of them an instruction's canonical word comes from, and the other direction:
`enc(decode(w)) = w` exactly for the words with unread bits (R101) zero and a mnemonic that is not `unknown`. -/
def Obligations.EncodingFunctionsInvertDecoder : Prop :=
  (∀ (funct : BitVec 6) (rs rt rd : Reg), funct ∈ [0x20#6, 0x22#6, 0x24#6, 0x25#6, 0x2A#6] →
    encR funct rs rt rd 0#5 =
      (rs.setWidth 32 <<< 21) ||| (rt.setWidth 32 <<< 16) ||| (rd.setWidth 32 <<< 11) ||| funct.setWidth 32 ∧
    decode (encR funct rs rt rd 0#5) = .r 0#6 rs rt rd 0#5 funct (functTable funct)) ∧
  (∀ (opcode : BitVec 6) (rs rt : Reg) (imm : Imm16),
    opcode ∈ [0x04#6, 0x05#6, 0x09#6, 0x0C#6, 0x0D#6, 0x0F#6, 0x23#6, 0x2B#6] →
    encI opcode rs rt imm =
      (opcode.setWidth 32 <<< 26) ||| (rs.setWidth 32 <<< 21) ||| (rt.setWidth 32 <<< 16) ||| imm.setWidth 32 ∧
    decode (encI opcode rs rt imm) = .i opcode rs rt imm (opcodeTable opcode)) ∧
  (∀ target : Target26, encJ target = (2#32 <<< 26) ||| target.setWidth 32 ∧
    decode (encJ target) = .j 2#6 target .j) ∧
  decode 0x0000000C#32 = .syscall 0#6 0x0C#6 .syscall ∧
  encR 0x0C#6 0#5 0#5 0#5 0#5 = 0x0000000C#32 ∧
  (∀ i : Instr, encCanonical i =
    match i with
    | .syscall | .syscallR _ _ _ => 0x0000000C#32
    | .add rs rt rd => encR 0x20#6 rs rt rd 0#5
    | .sub rs rt rd => encR 0x22#6 rs rt rd 0#5
    | .and rs rt rd => encR 0x24#6 rs rt rd 0#5
    | .or rs rt rd => encR 0x25#6 rs rt rd 0#5
    | .slt rs rt rd => encR 0x2A#6 rs rt rd 0#5
    | .j target => encJ target
    | .beq rs rt imm => encI 0x04#6 rs rt imm
    | .bne rs rt imm => encI 0x05#6 rs rt imm
    | .addiu rs rt imm => encI 0x09#6 rs rt imm
    | .andi rs rt imm => encI 0x0C#6 rs rt imm
    | .ori rs rt imm => encI 0x0D#6 rs rt imm
    | .lui _ rt imm => encI 0x0F#6 0#5 rt imm
    | .lw rs rt imm => encI 0x23#6 rs rt imm
    | .sw rs rt imm => encI 0x2B#6 rs rt imm) ∧
  ∀ w : Word, (∃ i, decodeWord w = some i ∧ encCanonical i = w) ↔
    w &&& (decode w).unreadBits = 0#32 ∧ (decode w).mnemonic ≠ .unknown

/-- O59. The terminate service is the only way to `Success` (45_syscall.md section 1, R216): the last step of a run from a
launch that ends so is a `syscall` with `x[2] = 10`. -/
def Obligations.SuccessComesFromTerminateOnly : Prop :=
  ∀ (l : Launch) (s last : State) (fuel : Nat), State.launch l = .next s → run fuel s = .ended .success last →
    ∃ n before w i, run n s = .unfinished before ∧ step before = .next last ∧
      before.imem[before.pc.toNat]? = some w ∧ decodeWord w = some i ∧ IsSyscall i ∧ before.readReg 2#5 = 10#32
end

