-- ==== Sys2Proof/Laws/Decode.lean ====
section
/-! SUPPORT. The fields of an encoded word, and what a match under a mask says of a word's fields. -/

namespace Sys2Proof

section Fields

variable (funct opcode : BitVec 6) (rs rt rd : Reg) (unread : BitVec 5) (imm : Imm16) (target : Target26)

@[simp] theorem opcodeOf_encR : opcodeOf (encR funct rs rt rd unread) = 0#6 := by
  refine BitVec.eq_of_getLsbD_eq fun i hi => ?_
  simp only [opcodeOf, encR, BitVec.getLsbD_extractLsb', BitVec.getLsbD_append]
  grind
@[simp] theorem functOf_encR : functOf (encR funct rs rt rd unread) = funct := by
  refine BitVec.eq_of_getLsbD_eq fun i hi => ?_
  simp only [functOf, encR, BitVec.getLsbD_extractLsb', BitVec.getLsbD_append]
  grind
@[simp] theorem rsOf_encR : rsOf (encR funct rs rt rd unread) = rs := by
  refine BitVec.eq_of_getLsbD_eq fun i hi => ?_
  simp only [rsOf, encR, BitVec.getLsbD_extractLsb', BitVec.getLsbD_append]
  grind
@[simp] theorem rtOf_encR : rtOf (encR funct rs rt rd unread) = rt := by
  refine BitVec.eq_of_getLsbD_eq fun i hi => ?_
  simp only [rtOf, encR, BitVec.getLsbD_extractLsb', BitVec.getLsbD_append]
  grind
@[simp] theorem rdOf_encR : rdOf (encR funct rs rt rd unread) = rd := by
  refine BitVec.eq_of_getLsbD_eq fun i hi => ?_
  simp only [rdOf, encR, BitVec.getLsbD_extractLsb', BitVec.getLsbD_append]
  grind
@[simp] theorem opcodeOf_encI : opcodeOf (encI opcode rs rt imm) = opcode := by
  refine BitVec.eq_of_getLsbD_eq fun i hi => ?_
  simp only [opcodeOf, encI, BitVec.getLsbD_extractLsb', BitVec.getLsbD_append]
  grind
@[simp] theorem rsOf_encI : rsOf (encI opcode rs rt imm) = rs := by
  refine BitVec.eq_of_getLsbD_eq fun i hi => ?_
  simp only [rsOf, encI, BitVec.getLsbD_extractLsb', BitVec.getLsbD_append]
  grind
@[simp] theorem rtOf_encI : rtOf (encI opcode rs rt imm) = rt := by
  refine BitVec.eq_of_getLsbD_eq fun i hi => ?_
  simp only [rtOf, encI, BitVec.getLsbD_extractLsb', BitVec.getLsbD_append]
  grind
@[simp] theorem immOf_encI : immOf (encI opcode rs rt imm) = imm := by
  refine BitVec.eq_of_getLsbD_eq fun i hi => ?_
  simp only [immOf, encI, BitVec.getLsbD_extractLsb', BitVec.getLsbD_append]
  grind
@[simp] theorem opcodeOf_encJ : opcodeOf (encJ target) = 2#6 := by
  refine BitVec.eq_of_getLsbD_eq fun i hi => ?_
  simp only [opcodeOf, encJ, BitVec.getLsbD_extractLsb', BitVec.getLsbD_append]
  grind
@[simp] theorem targetOf_encJ : targetOf (encJ target) = target := by
  refine BitVec.eq_of_getLsbD_eq fun i hi => ?_
  simp only [targetOf, encJ, BitVec.getLsbD_extractLsb', BitVec.getLsbD_append]
  grind

end Fields

section Masks

/-- What a word agreeing with `c` under the mask of the format-`R` rows, `0xFC00003F`, holds in the masked fields. -/
theorem fields_of_match_R {w c : Word} (h : w &&& 0xFC00003F#32 = c) :
    opcodeOf w = opcodeOf c ∧ functOf w = functOf c := by
  subst h
  constructor <;> refine BitVec.eq_of_getLsbD_eq fun i hi => ?_
  · simp only [opcodeOf, BitVec.getLsbD_extractLsb', BitVec.getLsbD_and]
    have : (0xFC00003F#32).getLsbD (26 + i) = true := by
      have : i = 0 ∨ i = 1 ∨ i = 2 ∨ i = 3 ∨ i = 4 ∨ i = 5 := by omega
      rcases this with rfl | rfl | rfl | rfl | rfl | rfl <;> rfl
    simp [this]
  · simp only [functOf, BitVec.getLsbD_extractLsb', BitVec.getLsbD_and]
    have : (0xFC00003F#32).getLsbD (0 + i) = true := by
      have : i = 0 ∨ i = 1 ∨ i = 2 ∨ i = 3 ∨ i = 4 ∨ i = 5 := by omega
      rcases this with rfl | rfl | rfl | rfl | rfl | rfl <;> rfl
    rw [this, Bool.and_true]

/-- What a word agreeing with `c` under the mask of the format-`I` and `J` rows, `0xFC000000`, holds as its opcode. -/
theorem opcode_of_match {w c : Word} (h : w &&& 0xFC000000#32 = c) : opcodeOf w = opcodeOf c := by
  subst h
  refine BitVec.eq_of_getLsbD_eq fun i hi => ?_
  simp only [opcodeOf, BitVec.getLsbD_extractLsb', BitVec.getLsbD_and]
  have : (0xFC000000#32).getLsbD (26 + i) = true := by
    have : i = 0 ∨ i = 1 ∨ i = 2 ∨ i = 3 ∨ i = 4 ∨ i = 5 := by omega
    rcases this with rfl | rfl | rfl | rfl | rfl | rfl <;> rfl
  simp [this]

end Masks

section Canonical

variable (i : Instr) (rs rt rd : Reg) (imm : Imm16)

/-- R103: "for `lui` the canonical `rs` is 0". -/
@[simp] theorem encCanonical_lui : encCanonical (.lui rs rt imm) = encI 0x0F#6 0#5 rt imm := rfl

/-- R103: a `syscall` has the one canonical word, the literal. -/
@[simp] theorem encCanonical_syscallR : encCanonical (.syscallR rs rt rd) = syscallWord := rfl

@[simp] theorem mnemonic_canonical : i.canonical.mnemonic = i.mnemonic := by cases i <;> rfl

@[simp] theorem canonical_canonical : i.canonical.canonical = i.canonical := by cases i <;> rfl

end Canonical

/-- The syscall literal is an opcode-0 word with function code `0x0C` (R94). -/
theorem fields_syscallWord : opcodeOf syscallWord = 0x00#6 ∧ functOf syscallWord = 0x0C#6 := by decide

/-- A format-`R` word: opcode 0, and not the literal (R81). -/
theorem decode_R {w : Word} (hw : w ≠ syscallWord) (ho : opcodeOf w = 0x00#6) :
    decode w = .r 0x00#6 (rsOf w) (rtOf w) (rdOf w) 0#5 (functOf w) (functTable (functOf w)) := by
  simp [decode, formatOf, hw, ho]

/-- A format-`J` word: opcode 2 (R81). -/
theorem decode_J {w : Word} (ho : opcodeOf w = 0x02#6) : decode w = .j 0x02#6 (targetOf w) .j := by
  have hw : w ≠ syscallWord := by rintro rfl; exact absurd (ho.symm.trans fields_syscallWord.1) (by decide)
  simp [decode, formatOf, hw, ho, opcodeTable]

/-- A format-`I` word: every other opcode (R81). -/
theorem decode_I {w : Word} (h0 : opcodeOf w ≠ 0x00#6) (h2 : opcodeOf w ≠ 0x02#6) :
    decode w = .i (opcodeOf w) (rsOf w) (rtOf w) (immOf w) (opcodeTable (opcodeOf w)) := by
  have hw : w ≠ syscallWord := by rintro rfl; exact h0 fields_syscallWord.1
  simp [decode, formatOf, hw, h0, h2]
end Sys2Proof
end

