-- ==== Sys2Proof/Laws/Memory.lean ====
section
/-! SUPPORT. The laws of a segment: a read after a write, the canonical form, and the segment a launch fills. -/

namespace Sys2Proof.Machine.Memory

/-- A cell below every listed index reads as unlisted. -/
theorem read_of_lt {m : Memory} {k : Nat} (h : ∀ c ∈ m, k < c.1) : m.read k = unlisted := by
  induction m with
  | nil => rfl
  | cons c m ih =>
    obtain ⟨j, u⟩ := c
    have hj : k < j := h (j, u) (by simp)
    have hne : k ≠ j := by omega
    simp only [read, if_neg hne]
    exact ih fun c hc => h c (by simp [hc])

theorem read_put_same {m : Memory} {k : Nat} {v : Word} (h : ∀ c ∈ m, k < c.1) : (put k v m).read k = v := by
  unfold put
  split
  · next hv => rw [read_of_lt h, hv]
  · simp [read]

theorem read_put_other {m : Memory} {k k' : Nat} {v : Word} (h : k' ≠ k) : (put k v m).read k' = m.read k' := by
  unfold put
  split
  · rfl
  · simp [read, h]

/-- A write leaves every other cell alone (R53). -/
theorem read_write_other (m : Memory) {k k' : Nat} (v : Word) (h : k' ≠ k) : (m.write k v).read k' = m.read k' := by
  induction m with
  | nil => simp [write, read_put_other h]
  | cons c m ih =>
    obtain ⟨j, u⟩ := c
    simp only [write]
    split
    · exact read_put_other h
    · split
      · next hkj => subst hkj; rw [read_put_other h]; simp [read, h]
      · simp only [read, ih]

/-- A read after a write to the same cell gives the value written (R62). -/
theorem read_write_same {m : Memory} (hm : m.wf) (k : Nat) (v : Word) : (m.write k v).read k = v := by
  induction m with
  | nil => simp [write, read_put_same]
  | cons c m ih =>
    obtain ⟨j, u⟩ := c
    obtain ⟨hp, hu⟩ := hm
    rw [List.pairwise_cons] at hp
    have hm' : wf m := ⟨hp.2, fun c hc => hu c (by simp [hc])⟩
    simp only [write]
    split
    · next hkj =>
      refine read_put_same fun c hc => ?_
      rcases List.mem_cons.1 hc with rfl | hc
      · exact hkj
      · exact Nat.lt_trans hkj (hp.1 c hc)
    · split
      · next hkj => subst hkj; exact read_put_same hp.1
      · next hne => simp only [read, if_neg hne]; exact ih hm'

theorem read_write {m : Memory} (hm : m.wf) (k k' : Nat) (v : Word) :
    (m.write k v).read k' = if k' = k then v else m.read k' := by
  split
  · next h => subst h; exact read_write_same hm _ v
  · next h => exact read_write_other m v h

theorem mem_put {m : Memory} {k : Nat} {v : Word} {c : Nat × Word} (h : c ∈ put k v m) :
    (c = (k, v) ∧ v ≠ unlisted) ∨ c ∈ m := by
  unfold put at h
  split at h
  · exact .inr h
  · next hv =>
    rcases List.mem_cons.1 h with rfl | h
    · exact .inl ⟨rfl, hv⟩
    · exact .inr h

/-- Every entry after a write was there before or is the one written. -/
theorem mem_write {m : Memory} {k : Nat} {v : Word} {c : Nat × Word} (h : c ∈ m.write k v) :
    (c = (k, v) ∧ v ≠ unlisted) ∨ c ∈ m := by
  induction m with
  | nil => exact mem_put h
  | cons d m ih =>
    obtain ⟨j, u⟩ := d
    simp only [write] at h
    split at h
    · exact mem_put h
    · split at h
      · exact (mem_put h).imp_right fun h => by simp [h]
      · rcases List.mem_cons.1 h with rfl | h
        · exact .inr (by simp)
        · exact (ih h).imp_right fun h => by simp [h]

theorem put_wf {m : Memory} (hm : m.wf) {k : Nat} (v : Word) (h : ∀ c ∈ m, k < c.1) : (put k v m).wf := by
  unfold put
  split
  · exact hm
  · next hv =>
    refine ⟨List.pairwise_cons.2 ⟨h, hm.1⟩, fun c hc => ?_⟩
    rcases List.mem_cons.1 hc with rfl | hc
    · exact hv
    · exact hm.2 c hc

/-- A write keeps the canonical form. -/
theorem write_wf {m : Memory} (hm : m.wf) (k : Nat) (v : Word) : (m.write k v).wf := by
  induction m with
  | nil => exact put_wf hm v (by simp)
  | cons c m ih =>
    obtain ⟨j, u⟩ := c
    have hp := List.pairwise_cons.1 hm.1
    have hm' : wf m := ⟨hp.2, fun c hc => hm.2 c (by simp [hc])⟩
    simp only [write]
    split
    · next hkj =>
      refine put_wf hm v fun c hc => ?_
      rcases List.mem_cons.1 hc with rfl | hc
      · exact hkj
      · exact Nat.lt_trans hkj (hp.1 c hc)
    · split
      · next hkj => subst hkj; exact put_wf hm' v hp.1
      · next hlt hne =>
        refine ⟨List.pairwise_cons.2 ⟨fun c hc => ?_, (ih hm').1⟩, fun c hc => ?_⟩
        · rcases mem_write hc with ⟨rfl, _⟩ | hc
          · show j < k
            omega
          · exact hp.1 c hc
        · rcases List.mem_cons.1 hc with rfl | hc
          · exact hm.2 (j, u) (by simp)
          · exact (ih hm').2 c hc

/-- A write below the capacity keeps every index below it. -/
theorem write_within {m : Memory} {cap : Nat} (hm : m.within cap) {k : Nat} (v : Word) (hk : k < cap) :
    (m.write k v).within cap := by
  intro c hc
  rcases mem_write hc with ⟨rfl, _⟩ | hc
  · exact hk
  · exact hm c hc

theorem fill_bounds (f : Nat → Word) (n k : Nat) : ∀ c ∈ fill f n k, k ≤ c.1 ∧ c.1 < k + n := by
  induction n generalizing k with
  | zero => simp [fill]
  | succ n ih =>
    intro c hc
    rcases mem_put hc with ⟨rfl, _⟩ | hc
    · exact ⟨Nat.le_refl k, by show k < _; omega⟩
    · have := ih (k + 1) c hc
      omega

/-- A filled segment is canonical. -/
theorem fill_wf (f : Nat → Word) (n k : Nat) : (fill f n k).wf := by
  induction n generalizing k with
  | zero => exact ⟨.nil, by simp [fill]⟩
  | succ n ih =>
    refine put_wf (ih (k + 1)) _ fun c hc => ?_
    have := fill_bounds f n (k + 1) c hc
    omega

theorem fill_within (f : Nat → Word) (n : Nat) : (fill f n 0).within n := by
  intro c hc
  have := fill_bounds f n 0 c hc
  omega

/-- Cell `k'` of a filled segment holds `f k'`. -/
theorem read_fill (f : Nat → Word) {n k k' : Nat} (h₁ : k ≤ k') (h₂ : k' < k + n) : (fill f n k).read k' = f k' := by
  induction n generalizing k with
  | zero => omega
  | succ n ih =>
    by_cases h : k' = k
    · subst h
      exact read_put_same fun c hc => by
        have := fill_bounds f n (k' + 1) c hc
        omega
    · rw [fill, read_put_other h]
      exact ih (by omega) (by omega)

end Sys2Proof.Machine.Memory
end

