-- ==== Sys2Proof/Laws/State.lean ====
section
/-! SUPPORT. One lemma per field of the state per update, true by definition. -/

namespace Sys2Proof.Machine.State

variable (s : State)

@[simp] theorem setPc_params (t : Int) : (s.setPc t).params = s.params := rfl
@[simp] theorem setPc_regs (t : Int) : (s.setPc t).regs = s.regs := rfl
@[simp] theorem setPc_pc (t : Int) : (s.setPc t).pc = t := rfl
@[simp] theorem setPc_imem (t : Int) : (s.setPc t).imem = s.imem := rfl
@[simp] theorem setPc_data (t : Int) : (s.setPc t).data = s.data := rfl
@[simp] theorem setPc_stack (t : Int) : (s.setPc t).stack = s.stack := rfl
@[simp] theorem setPc_halted (t : Int) : (s.setPc t).halted = s.halted := rfl
@[simp] theorem setPc_fault (t : Int) : (s.setPc t).fault = s.fault := rfl
@[simp] theorem setPc_out (t : Int) : (s.setPc t).out = s.out := rfl
@[simp] theorem setPc_input (t : Int) : (s.setPc t).input = s.input := rfl

@[simp] theorem advance_params : s.advance.params = s.params := rfl
@[simp] theorem advance_regs : s.advance.regs = s.regs := rfl
@[simp] theorem advance_pc : s.advance.pc = s.pc + 1 := rfl
@[simp] theorem advance_imem : s.advance.imem = s.imem := rfl
@[simp] theorem advance_data : s.advance.data = s.data := rfl
@[simp] theorem advance_stack : s.advance.stack = s.stack := rfl
@[simp] theorem advance_halted : s.advance.halted = s.halted := rfl
@[simp] theorem advance_fault : s.advance.fault = s.fault := rfl
@[simp] theorem advance_out : s.advance.out = s.out := rfl
@[simp] theorem advance_input : s.advance.input = s.input := rfl

@[simp] theorem emitAll_params (es : List Event) : (s.emitAll es).params = s.params := rfl
@[simp] theorem emitAll_regs (es : List Event) : (s.emitAll es).regs = s.regs := rfl
@[simp] theorem emitAll_pc (es : List Event) : (s.emitAll es).pc = s.pc := rfl
@[simp] theorem emitAll_imem (es : List Event) : (s.emitAll es).imem = s.imem := rfl
@[simp] theorem emitAll_data (es : List Event) : (s.emitAll es).data = s.data := rfl
@[simp] theorem emitAll_stack (es : List Event) : (s.emitAll es).stack = s.stack := rfl
@[simp] theorem emitAll_halted (es : List Event) : (s.emitAll es).halted = s.halted := rfl
@[simp] theorem emitAll_fault (es : List Event) : (s.emitAll es).fault = s.fault := rfl
@[simp] theorem emitAll_out (es : List Event) : (s.emitAll es).out = s.out ++ es := rfl
@[simp] theorem emitAll_input (es : List Event) : (s.emitAll es).input = s.input := rfl

@[simp] theorem emit_params (e : Event) : (s.emit e).params = s.params := rfl
@[simp] theorem emit_regs (e : Event) : (s.emit e).regs = s.regs := rfl
@[simp] theorem emit_pc (e : Event) : (s.emit e).pc = s.pc := rfl
@[simp] theorem emit_imem (e : Event) : (s.emit e).imem = s.imem := rfl
@[simp] theorem emit_data (e : Event) : (s.emit e).data = s.data := rfl
@[simp] theorem emit_stack (e : Event) : (s.emit e).stack = s.stack := rfl
@[simp] theorem emit_halted (e : Event) : (s.emit e).halted = s.halted := rfl
@[simp] theorem emit_fault (e : Event) : (s.emit e).fault = s.fault := rfl
@[simp] theorem emit_out (e : Event) : (s.emit e).out = s.out ++ [e] := rfl
@[simp] theorem emit_input (e : Event) : (s.emit e).input = s.input := rfl

@[simp] theorem halt_params : s.halt.params = s.params := rfl
@[simp] theorem halt_regs : s.halt.regs = s.regs := rfl
@[simp] theorem halt_pc : s.halt.pc = s.pc := rfl
@[simp] theorem halt_imem : s.halt.imem = s.imem := rfl
@[simp] theorem halt_data : s.halt.data = s.data := rfl
@[simp] theorem halt_stack : s.halt.stack = s.stack := rfl
@[simp] theorem halt_halted : s.halt.halted = true := rfl
@[simp] theorem halt_fault : s.halt.fault = s.fault := rfl
@[simp] theorem halt_out : s.halt.out = s.out := rfl
@[simp] theorem halt_input : s.halt.input = s.input := rfl

@[simp] theorem raise_params (f : AddressFault) : (s.raise f).params = s.params := rfl
@[simp] theorem raise_regs (f : AddressFault) : (s.raise f).regs = s.regs := rfl
@[simp] theorem raise_pc (f : AddressFault) : (s.raise f).pc = s.pc := rfl
@[simp] theorem raise_imem (f : AddressFault) : (s.raise f).imem = s.imem := rfl
@[simp] theorem raise_data (f : AddressFault) : (s.raise f).data = s.data := rfl
@[simp] theorem raise_stack (f : AddressFault) : (s.raise f).stack = s.stack := rfl
@[simp] theorem raise_halted (f : AddressFault) : (s.raise f).halted = s.halted := rfl
@[simp] theorem raise_fault (f : AddressFault) : (s.raise f).fault = some f := rfl
@[simp] theorem raise_out (f : AddressFault) : (s.raise f).out = s.out := rfl
@[simp] theorem raise_input (f : AddressFault) : (s.raise f).input = s.input := rfl

@[simp] theorem writeReg_params (r : Reg) (v : Word) : (s.writeReg r v).params = s.params := rfl
@[simp] theorem writeReg_pc (r : Reg) (v : Word) : (s.writeReg r v).pc = s.pc := rfl
@[simp] theorem writeReg_imem (r : Reg) (v : Word) : (s.writeReg r v).imem = s.imem := rfl
@[simp] theorem writeReg_data (r : Reg) (v : Word) : (s.writeReg r v).data = s.data := rfl
@[simp] theorem writeReg_stack (r : Reg) (v : Word) : (s.writeReg r v).stack = s.stack := rfl
@[simp] theorem writeReg_halted (r : Reg) (v : Word) : (s.writeReg r v).halted = s.halted := rfl
@[simp] theorem writeReg_fault (r : Reg) (v : Word) : (s.writeReg r v).fault = s.fault := rfl
@[simp] theorem writeReg_out (r : Reg) (v : Word) : (s.writeReg r v).out = s.out := rfl
@[simp] theorem writeReg_input (r : Reg) (v : Word) : (s.writeReg r v).input = s.input := rfl

/-! A read sees only the fields it reads: the updates it is blind to. -/

@[simp] theorem readReg_setPc (t : Int) (q : Reg) : (s.setPc t).readReg q = s.readReg q := rfl
@[simp] theorem memRead_setPc (t : Int) (a : Int) : (s.setPc t).memRead a = s.memRead a := rfl
@[simp] theorem dataRead_setPc (t : Int) (k : Int) : (s.setPc t).dataRead k = s.dataRead k := rfl

@[simp] theorem readReg_advance (q : Reg) : s.advance.readReg q = s.readReg q := rfl
@[simp] theorem memRead_advance (a : Int) : s.advance.memRead a = s.memRead a := rfl
@[simp] theorem dataRead_advance (k : Int) : s.advance.dataRead k = s.dataRead k := rfl

@[simp] theorem readReg_emitAll (es : List Event) (q : Reg) : (s.emitAll es).readReg q = s.readReg q := rfl
@[simp] theorem memRead_emitAll (es : List Event) (a : Int) : (s.emitAll es).memRead a = s.memRead a := rfl
@[simp] theorem dataRead_emitAll (es : List Event) (k : Int) : (s.emitAll es).dataRead k = s.dataRead k := rfl

@[simp] theorem readReg_emit (e : Event) (q : Reg) : (s.emit e).readReg q = s.readReg q := rfl
@[simp] theorem memRead_emit (e : Event) (a : Int) : (s.emit e).memRead a = s.memRead a := rfl
@[simp] theorem dataRead_emit (e : Event) (k : Int) : (s.emit e).dataRead k = s.dataRead k := rfl

@[simp] theorem readReg_halt (q : Reg) : s.halt.readReg q = s.readReg q := rfl
@[simp] theorem memRead_halt (a : Int) : s.halt.memRead a = s.memRead a := rfl
@[simp] theorem dataRead_halt (k : Int) : s.halt.dataRead k = s.dataRead k := rfl

@[simp] theorem readReg_raise (f : AddressFault) (q : Reg) : (s.raise f).readReg q = s.readReg q := rfl
@[simp] theorem memRead_raise (f : AddressFault) (a : Int) : (s.raise f).memRead a = s.memRead a := rfl
@[simp] theorem dataRead_raise (f : AddressFault) (k : Int) : (s.raise f).dataRead k = s.dataRead k := rfl

@[simp] theorem memRead_writeReg (r : Reg) (v : Word) (a : Int) : (s.writeReg r v).memRead a = s.memRead a := rfl
@[simp] theorem dataRead_writeReg (r : Reg) (v : Word) (k : Int) : (s.writeReg r v).dataRead k = s.dataRead k := rfl

end Sys2Proof.Machine.State
end

