-- ==== Sys2Proof/Laws/Registers.lean ====
section
/-! SUPPORT. The register file: a read after a write (10_state.md R20, R23). -/

namespace Sys2Proof.Machine.State

variable (s : State)

theorem hardZero_iff (r : Reg) : s.hardZero r = true ↔ s.params.zeroHardwired = true ∧ r = 0#5 := by
  simp [hardZero]

@[simp] theorem hardZero_writeReg (r q : Reg) (v : Word) : (s.writeReg r v).hardZero q = s.hardZero q := rfl

/-- A discarded write changes nothing (R23). -/
theorem writeReg_hardZero {r : Reg} (h : s.hardZero r = true) (v : Word) : s.writeReg r v = s := by
  simp [writeReg, regsAfterWrite, h]

/-- What any register reads after a write: the value written, 0 where the write is discarded, and every other register
as before (R23). -/
theorem readReg_writeReg (r q : Reg) (v : Word) :
    (s.writeReg r v).readReg q =
      if q = r then (if s.params.zeroHardwired = true ∧ r = 0#5 then 0#32 else v) else s.readReg q := by
  by_cases hz : s.hardZero r = true
  · have hz' := (s.hardZero_iff r).1 hz
    rw [writeReg_hardZero s hz]
    by_cases hq : q = r
    · subst hq; rw [if_pos rfl, if_pos hz', readReg, if_pos hz]
    · rw [if_neg hq]
  · have hz' : ¬(s.params.zeroHardwired = true ∧ r = 0#5) := fun h => hz ((s.hardZero_iff r).2 h)
    have hw : s.writeReg r v = { s with regs := s.regs.set r.toNat v r.isLt } := by simp [writeReg, regsAfterWrite, hz]
    rw [if_neg hz']
    by_cases hq : q = r
    · subst hq
      have : (s.writeReg q v).hardZero q = false := by simpa using hz
      simp [readReg, this]
      simp [hw]
    · have hne : r.toNat ≠ q.toNat := fun h => hq (BitVec.eq_of_toNat_eq h.symm)
      rw [if_neg hq]
      unfold readReg
      rw [hardZero_writeReg]
      simp only [hw]
      split
      · rfl
      · exact Vector.getElem_set_ne _ _ hne

/-- Under `ZERO_HARDWIRED` register 0 reads zero (R23). -/
theorem readReg_hardZero {r : Reg} (h : s.hardZero r = true) : s.readReg r = 0#32 := by
  rw [readReg, if_pos h]

theorem readReg_writeReg_other {r q : Reg} (v : Word) (h : q ≠ r) : (s.writeReg r v).readReg q = s.readReg q := by
  rw [readReg_writeReg, if_neg h]

end Sys2Proof.Machine.State
end

