-- ==== Sys2Proof/Laws/Ops.lean ====
section
/-! SUPPORT. One lemma per shared operation that says everything it can do. -/

namespace Sys2Proof.Machine.State

variable {s : State}

/-- `MemRead` answers the cell of an index in range, and the fault otherwise (R52). -/
theorem memRead_cases (s : State) (a : Int) :
    (0 ≤ stackIndex a ∧ stackIndex a < s.params.stackCap ∧
      s.memRead a = .ok (s.stack.read (stackIndex a).toNat)) ∨
    (¬(0 ≤ stackIndex a ∧ stackIndex a < s.params.stackCap) ∧ s.memRead a = .error ⟨.stack, stackIndex a⟩) := by
  unfold memRead
  split
  · next h => exact .inl ⟨h.1, h.2, rfl⟩
  · next h => exact .inr ⟨h, rfl⟩

/-- `MemWrite` writes the cell of an index in range, and answers the fault otherwise (R53). -/
theorem memWrite_cases (s : State) (a : Int) (v : Word) :
    (0 ≤ stackIndex a ∧ stackIndex a < s.params.stackCap ∧
      s.memWrite a v = .ok { s with stack := s.stack.write (stackIndex a).toNat v }) ∨
    (¬(0 ≤ stackIndex a ∧ stackIndex a < s.params.stackCap) ∧ s.memWrite a v = .error ⟨.stack, stackIndex a⟩) := by
  unfold memWrite
  split
  · next h => exact .inl ⟨h.1, h.2, rfl⟩
  · next h => exact .inr ⟨h, rfl⟩

/-- `DataRead` answers the cell of an index in range, and the fault otherwise (R54). -/
theorem dataRead_cases (s : State) (k : Int) :
    (0 ≤ k ∧ k < s.params.dataCap ∧ s.dataRead k = .ok (s.data.read k.toNat)) ∨
    (¬(0 ≤ k ∧ k < s.params.dataCap) ∧ s.dataRead k = .error ⟨.data, k⟩) := by
  unfold dataRead
  split
  · next h => exact .inl ⟨h.1, h.2, rfl⟩
  · next h => exact .inr ⟨h, rfl⟩

/-- `ReadInt` takes the oldest answer, or has none to take (R38). -/
theorem readInt_cases (s : State) :
    (s.input = [] ∧ s.readInt = none) ∨
    ∃ n rest, s.input = n :: rest ∧ s.readInt = some (n, { s with input := rest }) := by
  unfold readInt
  split
  · next h => exact .inl ⟨h, rfl⟩
  · next n rest h => exact .inr ⟨n, rest, h, rfl⟩

/-- Fetching answers a word exactly where `pc` addresses a loaded instruction (R55). -/
theorem fetch_eq_some {w : Word} : s.fetch = some w ↔ s.pcLoaded ∧ s.imem[s.pc.toNat]? = some w := by
  unfold fetch pcLoaded
  split
  · next h =>
    refine ⟨fun hw => ⟨⟨h, ?_⟩, hw⟩, fun hw => hw.2⟩
    obtain ⟨hlt, -⟩ := List.getElem?_eq_some_iff.1 hw
    omega
  · next h => simp [h]

theorem fetch_eq_none : s.fetch = none ↔ ¬ s.pcLoaded := by
  unfold fetch pcLoaded
  split
  · next h => rw [List.getElem?_eq_none_iff]; omega
  · next h => exact ⟨fun _ hw => h hw.1, fun _ => rfl⟩

/-- A word is next exactly while the loop condition of R141 holds. -/
theorem nextWord_eq_ok {w : Word} : s.nextWord = .ok w ↔ s.running ∧ s.imem[s.pc.toNat]? = some w := by
  unfold nextWord
  split
  · next h => simp [running, h]
  · next h =>
    split
    · next c hc => simp [running, hc]
    · next hf =>
      split
      · next hn => simp [running, fetch_eq_none.1 hn]
      · next v hv =>
        obtain ⟨hp, hv⟩ := fetch_eq_some.1 hv
        refine ⟨fun he => ?_, fun he => ?_⟩
        · cases he
          exact ⟨⟨hp, by simpa using h, hf⟩, hv⟩
        · rw [Option.some.inj (hv.symm.trans he.2)]

/-- The end of a run, in the order of R146. -/
theorem nextWord_eq_error {o : RunOutcome} : s.nextWord = .error o ↔
    (s.halted = true ∧ o = .success) ∨
    (s.halted = false ∧ ∃ c, s.fault = some c ∧ o = .fault c) ∨
    (s.halted = false ∧ s.fault = none ∧ ¬ s.pcLoaded ∧ o = .unsafeTermination) := by
  unfold nextWord
  split
  · next h => simp [h, eq_comm]
  · next h =>
    split
    · next c hc => simp [h, hc, eq_comm]
    · next hf =>
      split
      · next hn =>
        have hp := fetch_eq_none.1 hn
        generalize s.pcLoaded = p at hp
        simp [h, hf, hp, eq_comm]
      · next v hv =>
        have hp := (fetch_eq_some.1 hv).1
        generalize s.pcLoaded = p at hp
        simp [h, hf, hp]

end Sys2Proof.Machine.State

namespace Sys2Proof.Machine

/-- The loop of R213: at cursor `k` the service faults, stops at a zero cell, or emits one character and goes on. -/
theorem scanString_unroll (s : State) (k : Int) :
    scanString s (s.params.dataCap - k).toNat k =
      match s.dataRead k with
      | .error f => ([], some f)
      | .ok v =>
        if v = 0#32 then ([], none)
        else
          (v :: (scanString s (s.params.dataCap - (k + 1)).toNat (k + 1)).1,
            (scanString s (s.params.dataCap - (k + 1)).toNat (k + 1)).2) := by
  rcases s.dataRead_cases k with ⟨h₀, h₁, hr⟩ | ⟨hn, hr⟩
  · have : (s.params.dataCap - k).toNat = (s.params.dataCap - (k + 1)).toNat + 1 := by omega
    exact (congrArg (scanString s · k) this).trans rfl
  · rw [hr]
    cases h : (s.params.dataCap - k).toNat with
    | zero => rfl
    | succ n => rw [scanString, hr]

/-- No character of a string is the zero word (R37). -/
theorem scanString_ne_zero (s : State) (n : Nat) (k : Int) : ∀ c ∈ (scanString s n k).1, c ≠ 0#32 := by
  induction n generalizing k with
  | zero => simp [scanString]
  | succ n ih =>
    rw [scanString]
    split
    · simp
    · split
      · simp
      · next hv =>
        intro c hc
        rcases List.mem_cons.1 hc with rfl | hc
        · exact hv
        · exact ih _ c hc

/-- A fault of the walk names a data index outside the segment (R54), when the walk is long enough to reach its end. -/
theorem scanString_fault {s : State} {n : Nat} {k : Int} {f : AddressFault} (hn : (s.params.dataCap : Int) - k ≤ n)
    (h : (scanString s n k).2 = some f) : f.region = .data ∧ ¬(0 ≤ f.index ∧ f.index < s.params.dataCap) := by
  induction n generalizing k with
  | zero =>
    cases h
    exact ⟨rfl, by show ¬(0 ≤ k ∧ k < _); omega⟩
  | succ n ih =>
    rw [scanString] at h
    rcases s.dataRead_cases k with ⟨-, -, hr⟩ | ⟨hb, hr⟩
    · rw [hr] at h
      dsimp only at h
      split at h
      · exact nomatch h
      · exact ih (by omega) h
    · rw [hr] at h
      cases h
      exact ⟨rfl, hb⟩

/-- The walk reads the data segment and its capacity, nothing else. -/
theorem scanString_congr {s t : State} (h : ∀ k, t.dataRead k = s.dataRead k) (n : Nat) (k : Int) :
    scanString t n k = scanString s n k := by
  induction n generalizing k with
  | zero => rfl
  | succ n ih => simp only [scanString, h, ih]

/-- What the print-string service does from a cursor: it appends the walk's characters to `Out`, and records the walk's
fault if there is one (R213, R234). -/
theorem printStringFrom_eq (s : State) (k : Int) :
    printStringFrom s k =
      { s with
        out := s.out ++ (scanString s (s.params.dataCap - k).toNat k).1.map .printChar
        fault := (scanString s (s.params.dataCap - k).toNat k).2.or s.fault } := by
  unfold printStringFrom
  dsimp only
  split
  · next h => simp [h, State.emitAll]
  · next f h => simp [h, State.emitAll, State.raise]

/-- Every way a service can end (R210 to R217). -/
theorem service_cases (s : State) :
    (s.readReg codeReg = 1#32 ∧ service s = .next (printInteger s)) ∨
    (s.readReg codeReg = 4#32 ∧ service s = .next (printString s)) ∨
    (s.readReg codeReg = 5#32 ∧ s.input = [] ∧ service s = .fault .awaitingInput) ∨
    (s.readReg codeReg = 5#32 ∧ ∃ n rest, s.input = n :: rest ∧
      service s = .next (State.writeReg { s with input := rest } codeReg n)) ∨
    (s.readReg codeReg = 10#32 ∧ service s = .next s.halt) ∨
    (s.readReg codeReg ∉ [1#32, 4#32, 5#32, 10#32] ∧ service s = .next s) := by
  unfold service
  split
  · next h => exact .inl ⟨h, rfl⟩
  · next h1 =>
    split
    · next h => exact .inr (.inl ⟨h, rfl⟩)
    · next h4 =>
      split
      · next h5 =>
        rcases s.readInt_cases with ⟨hi, hr⟩ | ⟨n, rest, hi, hr⟩
        · exact .inr (.inr (.inl ⟨h5, hi, by simp [readInteger, hr]⟩))
        · exact .inr (.inr (.inr (.inl ⟨h5, n, rest, hi, by simp [readInteger, hr]⟩)))
      · next h5 =>
        split
        · next h => exact .inr (.inr (.inr (.inr (.inl ⟨h, rfl⟩))))
        · next h10 => exact .inr (.inr (.inr (.inr (.inr ⟨by simp [h1, h4, h5, h10], rfl⟩))))

end Sys2Proof.Machine
end

