-- ==== Sys2Proof/Laws/Step.lean ====
section
/-! SUPPORT. What an instruction and a step can do, said once. -/

namespace Sys2Proof.Machine

/-- Every next state of an instruction is one of these: a register written, `pc` written, a fault recorded, a stack cell
written, a service performed, or nothing changed. Each case names the instructions it comes from. -/
theorem exec_cases {i : Instr} {s t : State} (h : exec i s = .next t) :
    (∃ r v, t = s.writeReg r v ∧ destination i = some r) ∨
    (∃ p, t = s.setPc p ∧
      ((∃ rs rt imm, i = .beq rs rt imm ∧ s.readReg rs = s.readReg rt ∧ p = branchTarget s.pc imm) ∨
       (∃ rs rt imm, i = .bne rs rt imm ∧ s.readReg rs ≠ s.readReg rt ∧ p = branchTarget s.pc imm) ∨
       (∃ target, i = .j target ∧ p = jumpTarget s.params.textBase s.pc target))) ∨
    (t = s ∧ ((∃ rs rt imm, i = .beq rs rt imm ∧ s.readReg rs ≠ s.readReg rt) ∨
      (∃ rs rt imm, i = .bne rs rt imm ∧ s.readReg rs = s.readReg rt))) ∨
    (∃ a, t = s.raise ⟨.stack, stackIndex a⟩ ∧ ¬(0 ≤ stackIndex a ∧ stackIndex a < s.params.stackCap) ∧
      ((∃ rs rt imm, i = .lw rs rt imm ∧ a = effectiveAddress (s.readReg rs) imm) ∨
       (∃ rs rt imm, i = .sw rs rt imm ∧ a = effectiveAddress (s.readReg rs) imm))) ∨
    (∃ rs rt imm a, i = .sw rs rt imm ∧ a = effectiveAddress (s.readReg rs) imm ∧
      0 ≤ stackIndex a ∧ stackIndex a < s.params.stackCap ∧
      t = { s with stack := s.stack.write (stackIndex a).toNat (s.readReg rt) }) ∨
    (IsSyscall i ∧ service s = .next t) := by
  cases i with
  | add | sub | and | or | slt | addiu | andi | ori | lui =>
    cases h
    exact .inl ⟨_, _, rfl, rfl⟩
  | syscall => exact .inr (.inr (.inr (.inr (.inr ⟨.inl rfl, h⟩))))
  | syscallR a b c => exact .inr (.inr (.inr (.inr (.inr ⟨.inr ⟨a, b, c, rfl⟩, h⟩))))
  | j target =>
    cases h
    exact .inr (.inl ⟨_, rfl, .inr (.inr ⟨target, rfl, rfl⟩)⟩)
  | beq rs rt imm =>
    cases h
    by_cases he : s.readReg rs = s.readReg rt
    · exact .inr (.inl ⟨_, by simp [sameWord, he], .inl ⟨rs, rt, imm, rfl, he, rfl⟩⟩)
    · exact .inr (.inr (.inl ⟨by simp [sameWord, he], .inl ⟨rs, rt, imm, rfl, he⟩⟩))
  | bne rs rt imm =>
    cases h
    by_cases he : s.readReg rs = s.readReg rt
    · exact .inr (.inr (.inl ⟨by simp [sameWord, he], .inr ⟨rs, rt, imm, rfl, he⟩⟩))
    · exact .inr (.inl ⟨_, by simp [sameWord, he], .inr (.inl ⟨rs, rt, imm, rfl, he, rfl⟩)⟩)
  | lw rs rt imm =>
    rcases s.memRead_cases (effectiveAddress (s.readReg rs) imm) with ⟨-, -, hr⟩ | ⟨hb, hr⟩
    · simp only [exec, execLw, hr] at h
      cases h
      exact .inl ⟨_, _, rfl, rfl⟩
    · simp only [exec, execLw, hr] at h
      cases h
      exact .inr (.inr (.inr (.inl ⟨_, rfl, hb, .inl ⟨rs, rt, imm, rfl, rfl⟩⟩)))
  | sw rs rt imm =>
    rcases s.memWrite_cases (effectiveAddress (s.readReg rs) imm) (s.readReg rt) with ⟨h₀, h₁, hr⟩ | ⟨hb, hr⟩
    · simp only [exec, execSw, hr] at h
      cases h
      exact .inr (.inr (.inr (.inr (.inl ⟨rs, rt, imm, _, rfl, rfl, h₀, h₁, rfl⟩))))
    · simp only [exec, execSw, hr] at h
      cases h
      exact .inr (.inr (.inr (.inl ⟨_, rfl, hb, .inr ⟨rs, rt, imm, rfl, rfl⟩⟩)))

/-- A step with a next state: the loop condition holds, and the fetched word is executed after the default advance. -/
theorem step_eq_next {s t : State} (h : step s = .next t) :
    ∃ w, s.running ∧ s.imem[s.pc.toNat]? = some w ∧ execWord w s.advance = .next t := by
  unfold step at h
  split at h
  · exact nomatch h
  · next w hw =>
    obtain ⟨hr, hm⟩ := State.nextWord_eq_ok.1 hw
    exact ⟨w, hr, hm, h⟩

/-- The next state of a fetched word: its instruction's, or the report of an `unknown` word. -/
theorem execWord_eq_next {w : Word} {s t : State} (h : execWord w s = .next t) :
    (∃ i, decodeWord w = some i ∧ exec i s = .next t) ∨
    (decodeWord w = none ∧ t = s.emit (.reportUnknown w)) := by
  unfold execWord at h
  split at h
  · next i hi => exact .inl ⟨i, hi, h⟩
  · next hn =>
    cases h
    exact .inr ⟨hn, rfl⟩

/-- While the loop condition holds, a step executes the fetched word. -/
theorem step_of_running {s : State} {w : Word} (hr : s.running) (hw : s.imem[s.pc.toNat]? = some w) :
    step s = execWord w s.advance := by
  unfold step
  rw [State.nextWord_eq_ok.2 ⟨hr, hw⟩]

/-- Both forms of `syscall` perform the service (R210). -/
theorem exec_of_isSyscall {i : Instr} (h : IsSyscall i) (s : State) : exec i s = service s := by
  rcases h with rfl | ⟨a, b, c, rfl⟩ <;> rfl

/-- An instruction stops in one way only: the wait of the read-integer service (R151, R152). -/
theorem exec_eq_fault {i : Instr} {s : State} {f : Fault} (h : exec i s = .fault f) : f = .awaitingInput := by
  have hservice : service s = .fault f → f = .awaitingInput := fun hs => by
    rcases service_cases s with ⟨-, e⟩ | ⟨-, e⟩ | ⟨-, -, e⟩ | ⟨-, n, rest, -, e⟩ | ⟨-, e⟩ | ⟨-, e⟩ <;>
      rw [e] at hs <;> cases hs
    rfl
  cases i with
  | syscall | syscallR => exact hservice h
  | lw =>
    simp only [exec, execLw] at h
    split at h <;> exact nomatch h
  | sw =>
    simp only [exec, execSw] at h
    split at h <;> exact nomatch h
  | _ => exact nomatch h

/-- A run's end is reported exactly where the loop condition fails, with the outcome of R146. -/
theorem step_eq_runEnded {s : State} {o : RunOutcome} :
    step s = .fault (.runEnded o) ↔ s.nextWord = .error o := by
  unfold step
  split
  · next e he => simp [he]
  · next w hw =>
    refine ⟨fun h => ?_, fun h => nomatch hw.symm.trans h⟩
    unfold execWord at h
    split at h
    · exact nomatch exec_eq_fault h
    · exact nomatch h

/-- Loading a word at an index puts it there. -/
theorem placeWord_get (ws : List Word) (k : Nat) (w : Word) : (placeWord ws k w)[k]? = some w := by
  induction k generalizing ws with
  | zero => cases ws <;> rfl
  | succ k ih => cases ws <;> exact ih _

end Sys2Proof.Machine
end

