-- ==== Sys2Proof/Laws/Claims.lean ====
section
/-! SUPPORT. The small lemmas of the claims' own predicates (Safety.lean): each shape of result is met by the operation
that makes it, and each reading of a value agrees with the bit vector's. -/

namespace Sys2Proof.Machine

/-- `toS32` is the two's-complement reading (R12). -/
theorem toS32_eq_toInt (v : Word) : toS32 v = v.toInt := by
  unfold toS32
  rw [BitVec.toInt_eq_toNat_cond]
  split <;> split <;> omega

/-- `signed16` is the branches' `sext16` (R13). -/
theorem signed16_eq_sext16 (v : Imm16) : signed16 v = sext16 v := by
  unfold signed16 sext16
  rw [BitVec.toInt_eq_toNat_cond]
  split <;> split <;> omega

theorem stackTop_toNat : (Config.stackTop.toNat : Int) = 0x7FFFEFFC := by decide

/-- A register write has the shape of an arithmetic result (R169). -/
theorem writesRegister_writeReg (s : State) (d : Reg) (v : Word) : WritesRegister s (.next (s.writeReg d v)) d v :=
  ⟨_, rfl, by rw [State.readReg_writeReg, if_pos rfl], fun _ hq => State.readReg_writeReg_other s v hq, rfl,
    ⟨rfl, rfl, rfl, fun _ => rfl⟩, ⟨rfl, fun _ => rfl⟩, ⟨rfl, rfl, rfl, rfl⟩⟩

/-- Writing `pc` has the shape of a transfer (R194). -/
theorem setsPc_setPc (s : State) (p : Int) : SetsPc s (.next (s.setPc p)) p :=
  ⟨_, rfl, rfl, fun _ => rfl, ⟨rfl, rfl, rfl, fun _ => rfl⟩, ⟨rfl, fun _ => rfl⟩, ⟨rfl, rfl, rfl, rfl⟩⟩

/-- A branch not taken keeps the default advance (R190, R191). -/
theorem setsPc_same (s : State) : SetsPc s (.next s) s.pc :=
  ⟨_, rfl, rfl, fun _ => rfl, ⟨rfl, rfl, rfl, fun _ => rfl⟩, ⟨rfl, fun _ => rfl⟩, ⟨rfl, rfl, rfl, rfl⟩⟩

/-- Raising records the fault and nothing else (R234). -/
theorem recordsFault_raise (s : State) (f : AddressFault) : RecordsFault s (.next (s.raise f)) f :=
  ⟨_, rfl, rfl, fun _ => rfl, rfl, ⟨rfl, rfl, rfl, fun _ => rfl⟩, ⟨rfl, fun _ => rfl⟩, rfl, rfl, rfl⟩

/-- Emitting appends the events and changes nothing else (R37). -/
theorem emits_emitAll (s : State) (es : List Event) : Emits s (.next (s.emitAll es)) es s.fault :=
  ⟨_, rfl, rfl, rfl, fun _ => rfl, rfl, ⟨rfl, rfl, rfl, fun _ => rfl⟩, ⟨rfl, fun _ => rfl⟩, rfl, rfl⟩

/-- What no service touches (R218). -/
theorem service_keeps {s t : State} (h : service s = .next t) :
    t.params = s.params ∧ t.imem = s.imem ∧ t.data = s.data ∧ t.stack = s.stack ∧ t.pc = s.pc := by
  rcases service_cases s with ⟨-, e⟩ | ⟨-, e⟩ | ⟨-, -, e⟩ | ⟨-, n, rest, -, e⟩ | ⟨-, e⟩ | ⟨-, e⟩ <;>
    rw [e] at h <;> cases h
  · exact ⟨rfl, rfl, rfl, rfl, rfl⟩
  · rw [printString, printStringFrom_eq]
    exact ⟨rfl, rfl, rfl, rfl, rfl⟩
  all_goals exact ⟨rfl, rfl, rfl, rfl, rfl⟩

end Sys2Proof.Machine

namespace Sys2Proof

/-- A row of format `R`: the word's function code selects the instruction (R95, R96). -/
theorem decodeWord_of_match_R {w c : Word} {f : BitVec 6} (hm : w &&& 0xFC00003F#32 = c) (hc : opcodeOf c = 0#6)
    (hf : functOf c = f) (h : f ≠ 0x0C#6) : decodeWord w = instrR (functTable f) (rsOf w) (rtOf w) (rdOf w) := by
  obtain ⟨h₁, h₂⟩ := fields_of_match_R hm
  have hw : w ≠ syscallWord := by
    rintro rfl
    exact h (hf.symm.trans (h₂.symm.trans fields_syscallWord.2))
  rw [decodeWord, decode_R hw (h₁.trans hc), h₂, hf]
  rfl

/-- A row of format `I`: the word's opcode selects the instruction (R95, R97). -/
theorem decodeWord_of_match_I {w c : Word} {o : BitVec 6} (hm : w &&& 0xFC000000#32 = c) (ho : opcodeOf c = o)
    (h₀ : o ≠ 0#6) (h₂ : o ≠ 2#6) : decodeWord w = instrI (opcodeTable o) (rsOf w) (rtOf w) (immOf w) := by
  have h := (opcode_of_match hm).trans ho
  rw [decodeWord, decode_I (h ▸ h₀) (h ▸ h₂), h]
  rfl

/-- A function code never selects a mnemonic of another format (R122). -/
theorem functTable_inFormatR : ∀ f : BitVec 6, (functTable f).inFormatR = true := by decide

/-- An opcode of format `I` never selects a mnemonic of another format (R122). -/
theorem opcodeTable_inFormatI : ∀ o : BitVec 6, o ≠ 0#6 → o ≠ 2#6 → (opcodeTable o).inFormatI = true := by decide

/-- An encoded word of format `R` is the syscall literal only if its function code is `0x0C` (R103's caution). -/
theorem encR_ne_syscallWord {f : BitVec 6} (hf : f ≠ 0x0C#6) (rs rt rd : Reg) (u : BitVec 5) :
    encR f rs rt rd u ≠ syscallWord := fun h =>
  hf (by rw [← functOf_encR f rs rt rd u, h]; exact fields_syscallWord.2)

end Sys2Proof
end

