-- ==== Sys2Proof/Laws/Launch.lean ====
section
/-! SUPPORT. What a launch answers (10_state.md R41). -/

namespace Sys2Proof.Machine

/-- The register file a launch makes. -/
theorem Launch.regs_get (l : Launch) (n : Nat) (h : n < 32) :
    l.regs[n] =
      if n = 29 then Config.stackTop else if n = 0 then 0#32 else l.initRegs (BitVec.ofNat 5 n) := by
  unfold Launch.regs
  rw [Vector.getElem_set, Vector.getElem_set]
  simp only [eq_comm (a := n)]
  split
  · rfl
  · split
    · rfl
    · rw [Vector.getElem_ofFn]
      congr 1
      apply BitVec.eq_of_toNat_eq
      simp
      omega

/-- An accepted launch is in the contract of R10, and its state is the one R41 describes. -/
theorem State.launch_eq_next {l : Launch} {s : State} (h : State.launch l = .next s) :
    l.params.wf ∧ l.program.length ≤ l.params.progCap ∧ l.data.length ≤ l.params.dataCap ∧
      s.params = l.params ∧ s.regs = l.regs ∧ s.pc = 0 ∧ s.imem = l.program ∧
      s.data = Memory.fill l.dataWord l.params.dataCap 0 ∧ s.stack = Memory.fill l.initStack l.params.stackCap 0 ∧
      s.halted = false ∧ s.fault = none ∧ s.out = [] ∧ s.input = l.input := by
  unfold State.launch at h
  split at h
  · exact nomatch h
  · next hw =>
    split at h
    · exact nomatch h
    · split at h
      · exact nomatch h
      · cases h
        exact ⟨not_not.1 hw, by omega, by omega, rfl, rfl, rfl, rfl, rfl, rfl, rfl, rfl, rfl, rfl⟩

end Sys2Proof.Machine
end

