-- ==== Sys2Proof/Laws/PerInstr.lean ====
section
/-! SUPPORT. What holds of every instruction as syntax, one lemma per constructor. -/

namespace Sys2Proof.Laws.Known

/-- No instruction of the table has the mnemonic `unknown` (R95, R98). -/
def Statement (i : Instr) : Prop := i.mnemonic ≠ .unknown

theorem syscall : Statement .syscall := nofun
theorem add (rs rt rd : Reg) : Statement (.add rs rt rd) := nofun
theorem sub (rs rt rd : Reg) : Statement (.sub rs rt rd) := nofun
theorem and (rs rt rd : Reg) : Statement (.and rs rt rd) := nofun
theorem or (rs rt rd : Reg) : Statement (.or rs rt rd) := nofun
theorem slt (rs rt rd : Reg) : Statement (.slt rs rt rd) := nofun
theorem syscallR (rs rt rd : Reg) : Statement (.syscallR rs rt rd) := nofun
theorem j (target : Target26) : Statement (.j target) := nofun
theorem beq (rs rt : Reg) (imm : Imm16) : Statement (.beq rs rt imm) := nofun
theorem bne (rs rt : Reg) (imm : Imm16) : Statement (.bne rs rt imm) := nofun
theorem addiu (rs rt : Reg) (imm : Imm16) : Statement (.addiu rs rt imm) := nofun
theorem andi (rs rt : Reg) (imm : Imm16) : Statement (.andi rs rt imm) := nofun
theorem ori (rs rt : Reg) (imm : Imm16) : Statement (.ori rs rt imm) := nofun
theorem lui (rs rt : Reg) (imm : Imm16) : Statement (.lui rs rt imm) := nofun
theorem lw (rs rt : Reg) (imm : Imm16) : Statement (.lw rs rt imm) := nofun
theorem sw (rs rt : Reg) (imm : Imm16) : Statement (.sw rs rt imm) := nofun

end Sys2Proof.Laws.Known
end

