-- ==== Sys2Proof/Tests/Slice0.lean ====
section
/-! SUPPORT. The model's own tests. Every expected value is taken from spec/95_test_vectors.md (its series is named in the
docstring) or from the rule the docstring names, never from the model. The last part holds the witnesses: for each
statement with hypotheses, concrete states and operands that meet them. -/

namespace Sys2Proof.Tests

open Sys2Proof.Machine

/-! ### Helpers -/

/-- One word about to be fetched at index 0, with some registers given. -/
def start (w : Nat) (rs : List (Reg × Word)) : State :=
  rs.foldl (fun s p => s.writeReg p.1 p.2) (State.reset.withFetchWord 32 w)

/-- The state after one step, if the step has a next state. -/
def next (s : State) : Option State :=
  match step s with
  | .next t => some t
  | .fault _ | .refused _ => none

/-- A register after one step. -/
def reg (r : Reg) (s : State) : Option Word := (next s).map (·.readReg r)

/-- `pc` after one step. -/
def pcAfter (s : State) : Option Int := (next s).map (·.pc)

/-- The events after one step. -/
def outAfter (s : State) : Option (List Event) := (next s).map (·.out)

/-- The recorded fault after one step. -/
def faultAfter (s : State) : Option (Option AddressFault) := (next s).map (·.fault)

/-- The word in a stack cell after one step. -/
def cellAfter (k : Nat) (s : State) : Option Word := (next s).map (·.stack.read k)

/-- `s` with one stack cell set. -/
def withCell (k : Nat) (v : Word) (s : State) : State := { s with stack := s.stack.write k v }

/-- `s` with the data segment of the `Y` series: `0x48`, `0x49`, `0`, then unspecified fill. -/
def withText (s : State) : State := { s with data := [(0, 0x48#32), (1, 0x49#32), (2, 0#32)] }

/-- `s` with `ZERO_HARDWIRED = false`. -/
def zeroWritable (s : State) : State := { s with params := { s.params with zeroHardwired := false } }

/-! ### WellFormed: one ill-formed value per check, refused (40_decoder.md R122) -/

theorem test_wf_r_opcode : (Instruction.r 1 8 9 10 0 0x20 .add).wellFormed = false := by decide
theorem test_wf_r_shamt : (Instruction.r 0 8 9 10 31 0x20 .add).wellFormed = false := by decide
theorem test_wf_r_mnemonic : (Instruction.r 0 8 9 10 0 0x20 .lw).wellFormed = false := by decide
theorem test_wf_i_opcode_zero : (Instruction.i 0 8 9 5 .addiu).wellFormed = false := by decide
theorem test_wf_i_opcode_two : (Instruction.i 2 8 9 5 .addiu).wellFormed = false := by decide
theorem test_wf_i_mnemonic : (Instruction.i 9 8 9 5 .add).wellFormed = false := by decide
theorem test_wf_j_opcode : (Instruction.j 3 7 .j).wellFormed = false := by decide
theorem test_wf_j_mnemonic : (Instruction.j 2 7 .unknown).wellFormed = false := by decide
theorem test_wf_syscall_opcode : (Instruction.syscall 1 0x0C .syscall).wellFormed = false := by decide
theorem test_wf_syscall_funct : (Instruction.syscall 0 0x0D .syscall).wellFormed = false := by decide
theorem test_wf_syscall_mnemonic : (Instruction.syscall 0 0x0C .unknown).wellFormed = false := by decide

/-- A well-formed value of each format is accepted. -/
theorem test_wf_accepts :
    (Instruction.r 0 8 9 10 0 0x20 .add).wellFormed = true ∧ (Instruction.i 9 0 8 5 .addiu).wellFormed = true ∧
    (Instruction.j 2 7 .j).wellFormed = true ∧ (Instruction.syscall 0 0x0C .syscall).wellFormed = true := by decide

/-! ### Decoding: one word per constructor, bit by bit by R90 to R94 (series S4, DEC) -/

/-- DEC1. -/
theorem test_decode_syscall : decode 0b000000_00000000000000000000_001100#32 = .syscall 0 0x0C .syscall := by decide
/-- S4: `rs = 17`, `rt = 18`, `rd = 19`. -/
theorem test_decode_add : decode 0b000000_10001_10010_10011_00000_100000#32 = .r 0 17 18 19 0 0x20 .add := by decide
theorem test_decode_sub : decode 0b000000_10001_10010_10011_00000_100010#32 = .r 0 17 18 19 0 0x22 .sub := by decide
theorem test_decode_and : decode 0b000000_10001_10010_10011_00000_100100#32 = .r 0 17 18 19 0 0x24 .and := by decide
theorem test_decode_or : decode 0b000000_10001_10010_10011_00000_100101#32 = .r 0 17 18 19 0 0x25 .or := by decide
theorem test_decode_slt : decode 0b000000_10001_10010_10011_00000_101010#32 = .r 0 17 18 19 0 0x2A .slt := by decide
/-- DEC3: bits 25 to 6 not all zero, so format `R`. -/
theorem test_decode_syscallR : decode 0b000000_00000_00000_11111_00000_001100#32 = .r 0 0 0 31 0 0x0C .syscall := by decide
/-- S4: `target = 0x123456`. -/
theorem test_decode_j : decode 0b000010_00000100100011010001010110#32 = .j 2 0x123456 .j := by decide
/-- S4: `imm = 0xBEEF`. -/
theorem test_decode_beq : decode 0b000100_10001_10010_1011111011101111#32 = .i 4 17 18 0xBEEF .beq := by decide
theorem test_decode_bne : decode 0b000101_10001_10010_1011111011101111#32 = .i 5 17 18 0xBEEF .bne := by decide
theorem test_decode_addiu : decode 0b001001_10001_10010_1011111011101111#32 = .i 9 17 18 0xBEEF .addiu := by decide
theorem test_decode_andi : decode 0b001100_10001_10010_1011111011101111#32 = .i 0x0C 17 18 0xBEEF .andi := by decide
theorem test_decode_ori : decode 0b001101_10001_10010_1011111011101111#32 = .i 0x0D 17 18 0xBEEF .ori := by decide
theorem test_decode_lui : decode 0b001111_00000_10010_1011111011101111#32 = .i 0x0F 0 18 0xBEEF .lui := by decide
theorem test_decode_lw : decode 0b100011_10001_10010_1011111011101111#32 = .i 0x23 17 18 0xBEEF .lw := by decide
theorem test_decode_sw : decode 0b101011_10001_10010_1011111011101111#32 = .i 0x2B 17 18 0xBEEF .sw := by decide

/-- DEC4, DEC5, DEC6, DEC12, DEC13, DEC20, DEC21, DEC22: words in neither table. -/
theorem test_decode_unknown :
    [0x0000000D#32, 0x00000000#32, 0x03E00008#32, 0x0C100000#32, 0x20080005#32, 0xFFFFFFFF#32, 0x70000000#32,
      0x04000000#32].Forall fun w => decodeWord w = none := by decide

/-- DEC8: bits 10 to 6 are not read. -/
theorem test_decode_ignores_shamt_bits : decode 0x010957E0#32 = decode 0x01095020#32 := by decide

/-- The host's view gives every row's instruction; DEC2, DEC11, DEC19 at its edges. -/
theorem test_decodeTableWord :
    decodeTableWord 32 0x0C = some .syscall ∧ decodeTableWord 32 0x4C = some (.syscallR 0 0 0) ∧
    decodeTableWord 32 0x0BFFFFFF = some (.j 0x3FFFFFF) ∧ decodeTableWord 32 0x30000000 = some (.andi 0 0 0) := by decide

/-- 30_encoding.md R103 and series A: words the spec writes out for instructions it names. -/
theorem test_encode :
    encode (.add 8 9 10) = 0x01095020#32 ∧ encode (.addiu 0 8 5) = 0x24080005#32 ∧ encode (.lui 0 8 0x1001) = 0x3C081001#32 ∧
    encode (.sw 29 8 4) = 0xAFA80004#32 ∧ encode (.bne 8 9 0xFFFE) = 0x1509FFFE#32 ∧ encode (.j 0x0100003) = 0x08100003#32 ∧
    encode .syscall = 0x0000000C#32 := by decide

/-- R103: the canonical words of A21's `lui` with `rs` 31 and of DEC3's `syscall`. -/
theorem test_encCanonical :
    (decodeWord 0x3FE8FFFF#32).map encCanonical = some 0x3C08FFFF#32 ∧
    (decodeWord 0x0000F80C#32).map encCanonical = some 0x0000000C#32 ∧
    (decodeWord 0x010957E0#32).map encCanonical = some 0x01095020#32 := by decide

/-! ### Arithmetic and logic (series A) -/

/-- A2: signed overflow wraps, no trap. -/
theorem test_add_wraps : reg 10 (start 0x01095020 [(8, 0x7FFFFFFF), (9, 1)]) = some 0x80000000 := by decide
/-- A4: source and destination are one register. -/
theorem test_add_in_place : reg 8 (start 0x01084020 [(8, 0x80000000)]) = some 0 := by decide
/-- A22: a write to register 0 under both values of `ZERO_HARDWIRED`. -/
theorem test_write_register_zero :
    reg 0 (start 0x01090020 [(8, 1), (9, 2)]) = some 0 ∧
    reg 0 (zeroWritable (start 0x01090020 [(8, 1), (9, 2)])) = some 3 := by decide
/-- A13. -/
theorem test_sub_borrows : reg 10 (start 0x01095022 [(8, 0), (9, 1)]) = some 0xFFFFFFFF := by decide
/-- A14. -/
theorem test_sub_wraps : reg 10 (start 0x01095022 [(8, 0x80000000), (9, 1)]) = some 0x7FFFFFFF := by decide
/-- A9. -/
theorem test_and : reg 10 (start 0x01095024 [(8, 0xF0F0F0F0), (9, 0xFF00FF00)]) = some 0xF000F000 := by decide
/-- A10. -/
theorem test_or : reg 10 (start 0x01095025 [(8, 0xF0F0F0F0), (9, 0xFF00FF00)]) = some 0xFFF0FFF0 := by decide
/-- A18: a wrapped difference would say otherwise. -/
theorem test_slt_least_greatest : reg 10 (start 0x0109502A [(8, 0x80000000), (9, 0x7FFFFFFF)]) = some 1 := by decide
/-- A17. -/
theorem test_slt_is_signed : reg 10 (start 0x0109502A [(8, 0), (9, 0xFFFFFFFF)]) = some 0 := by decide
/-- A6: +65535, not -1. -/
theorem test_addiu_is_unsigned : reg 9 (start 0x2509FFFF [(8, 1)]) = some 0x00010000 := by decide
/-- A8. -/
theorem test_addiu_wraps : reg 9 (start 0x2509FFFF [(8, 0xFFFFFFFF)]) = some 0x0000FFFE := by decide
/-- A11: the high half cleared. -/
theorem test_andi : reg 9 (start 0x3109FF00 [(8, 0xFFFFFFFF)]) = some 0x0000FF00 := by decide
/-- A12: not sign-extended. -/
theorem test_ori : reg 9 (start 0x35098000 [(8, 0x00010001)]) = some 0x00018001 := by decide
/-- A20: the low half becomes 0. -/
theorem test_lui : reg 8 (start 0x3C081001 [(8, 0xFFFFFFFF)]) = some 0x10010000 := by decide
/-- A21: `rs` is not read. -/
theorem test_lui_ignores_rs : reg 8 (start 0x3FE8FFFF []) = some 0xFFFF0000 := by decide

/-! ### Control transfer (series B) -/

/-- B1, B2. -/
theorem test_beq :
    pcAfter (start 0x11090002 [(8, 7), (9, 7)]) = some 3 ∧ pcAfter (start 0x11090002 [(8, 7), (9, 8)]) = some 1 := by decide
/-- B6, B7: the least and the greatest offset. -/
theorem test_beq_extreme_offsets :
    pcAfter (start 0x10008000 []) = some (-32767) ∧ pcAfter (start 0x10007FFF []) = some 32768 := by decide
/-- B3: the branch at index 2, backward. -/
theorem test_bne_backward :
    (next (({ State.reset with pc := 2 }.withFetchWord 32 0x1509FFFE).writeReg 8 1 |>.writeReg 9 2)).map (·.pc)
      = some 1 := by decide
/-- B14: `rs = rt` is never taken. -/
theorem test_bne_same_register : pcAfter (start 0x15080001 []) = some 1 := by decide
/-- B9, B11, B12. -/
theorem test_j :
    pcAfter (start 0x08100003 []) = some 3 ∧ pcAfter (start 0x08000000 []) = some (-1048576) ∧
    pcAfter (start 0x0BFFFFFF []) = some 66060287 := by decide
/-- The last line of series B: with `TEXT_BASE = 0` the word `0x08000003` reaches index 3. -/
theorem test_j_text_base_zero :
    pcAfter { start 0x08000003 [] with params := { Config.defaultParams with textBase := 0 } } = some 3 := by decide

/-! ### Load and store (series M) -/

/-- M2. -/
theorem test_lw : reg 9 (withCell 0 0x11223344 (start 0x8FA90000 [])) = some 0x11223344 := by decide
/-- M10: the sum is not wrapped at 2^32. -/
theorem test_lw_sum_not_wrapped :
    faultAfter (start 0x8D2AFFFF [(9, 0xFFFFFFFF)]) = some (some ⟨.stack, -2147553282⟩) := by decide
/-- M5: the offset is +65535; only cell 0 is written. -/
theorem test_sw_offset_unsigned :
    cellAfter 0 (start 0xAD28FFFF [(8, 0xAB), (9, 0x7FFEEFFD)]) = some 0xAB ∧
    cellAfter 1 (withCell 1 0x77 (start 0xAD28FFFF [(8, 0xAB), (9, 0x7FFEEFFD)])) = some 0x77 := by decide
/-- M3: nothing stored, `pc = 1`. -/
theorem test_sw_above_top :
    faultAfter (start 0xAFA80004 []) = some (some ⟨.stack, -4⟩) ∧ pcAfter (start 0xAFA80004 []) = some 1 ∧
    (next (start 0xAFA80004 [])).map (·.stack) = some [] := by decide

/-! ### Syscall and unknown (series Y), the engine (series E) -/

/-- Y1, Y2. -/
theorem test_print_integer :
    outAfter (start 0x0C [(2, 1), (4, 0xFFFFFFFF)]) = some [.printInt (-1)] ∧
    outAfter (start 0x0C [(2, 1), (4, 0x80000000)]) = some [.printInt (-2147483648)] := by decide
/-- Y3 to Y5. -/
theorem test_print_string :
    outAfter (withText (start 0x0C [(2, 4), (4, 0x10010000)])) = some [.printChar 0x48, .printChar 0x49] ∧
    outAfter (withText (start 0x0C [(2, 4), (4, 0x10010001)])) = some [.printChar 0x49] ∧
    outAfter (withText (start 0x0C [(2, 4), (4, 0x10010002)])) = some [] := by decide
/-- Y7: events before the fault stay. -/
theorem test_print_string_unterminated :
    let s := { withText (start 0x0C [(2, 4), (4, 0x10010000)]) with params := { Config.defaultParams with dataCap := 2 } }
    outAfter s = some [.printChar 0x48, .printChar 0x49] ∧ faultAfter s = some (some ⟨.data, 2⟩) := by decide
/-- Y8: the answer -7. -/
theorem test_read_integer :
    reg 2 { start 0x0C [(2, 5)] with input := [0xFFFFFFF9] } = some 0xFFFFFFF9 := by decide
/-- Y9, Y13: both forms of the word. -/
theorem test_terminate :
    (next (start 0x0C [(2, 10)])).map (·.halted) = some true ∧
    (next (start 0x4C [(2, 10)])).map (·.halted) = some true := by decide
/-- Y10 to Y12: nothing but `pc` changes. -/
theorem test_other_codes :
    [0x00000000#32, 0x0000000B#32, 0x8000000A#32].Forall fun c =>
      next (start 0x0C [(2, c), (4, 9)]) = some { start 0x0C [(2, c), (4, 9)] with pc := 1 } := by decide
/-- Y14, first word. -/
theorem test_unknown_reports :
    outAfter (start 0 []) = some [.reportUnknown 0] ∧ pcAfter (start 0 []) = some 1 := by decide
/-- E1: the empty program takes no step. -/
theorem test_empty_program : step State.reset = .fault (.runEnded .unsafeTermination) := rfl
/-- E3: `halted` is tested before the range of `pc`. -/
theorem test_success_at_program_end :
    (next (start 0x0C [(2, 10)])).map step = some (.fault (.runEnded .success)) := rfl

/-! ### Witnesses: hypotheses of the statements, met -/

/-- DecodeFollowsTestsAndSlices: a word for each clause, the least and the greatest of each format. -/
theorem witness_decode_clauses :
    ([0x00000000#32, 0x0000004C#32, 0x03FFFFFF#32].Forall fun w : Word => w ≠ 0x0000000C#32 ∧ w >>> 26 = 0#32) ∧
    ([0x08000000#32, 0x0BFFFFFF#32].Forall fun w : Word => w >>> 26 = 2#32) ∧
    ([0x04000000#32, 0x0C000000#32, 0xFFFFFFFF#32].Forall fun w : Word => w >>> 26 ≠ 0#32 ∧ w >>> 26 ≠ 2#32) := by decide

/-- NoInstructionMeansUnknown, EncodeOfDecodeIsIdentityOnUnreadZero: words that decode, each case of the latter, with
unread bits zero and not zero. -/
theorem witness_words_decode :
    decodeWord 0x01095020#32 = some (.add 8 9 10) ∧ decodeWord 0x010957E0#32 = some (.add 8 9 10) ∧
    decodeWord 0x0000004C#32 = some (.syscallR 0 0 0) ∧ decodeWord 0x0000008C#32 = some (.syscallR 0 0 0) ∧
    decodeWord 0x0000F80C#32 = some (.syscallR 0 0 31) ∧ decodeWord 0x0000FFCC#32 = some (.syscallR 0 0 31) ∧
    decodeWord 0xAFBF0000#32 = some (.sw 29 31 0) := by decide

/-- UnreadBitsDoNotAffectExecution, SyscallRowsSelect: words of function code `0x0C` beside the literal. -/
theorem witness_syscall_words :
    [0x0000004C#32, 0x0000F80C#32, 0x03FFFFCC#32].Forall fun w =>
      opcodeOf w = 0#6 ∧ functOf w = 0x0C#6 ∧ w &&& 0xFC00003F#32 = 0x0000000C#32 ∧ w ≠ 0x0000000C#32 := by decide

/-- The rows of AddWritesSum, SubWritesDifference, AndWritesBitwiseAnd, OrWritesBitwiseOr, SltWritesSignedComparison: the
least and the greatest word of each. -/
theorem witness_rows_R :
    [0x20#32, 0x22#32, 0x24#32, 0x25#32, 0x2A#32].Forall fun p =>
      p &&& 0xFC00003F#32 = p ∧ (p ||| 0x03FFFFC0#32) &&& 0xFC00003F#32 = p := by decide

/-- The rows of format `I` and `J`: the least and the greatest word of each. -/
theorem witness_rows_I_and_J :
    [0x24000000#32, 0x30000000#32, 0x34000000#32, 0x3C000000#32, 0x10000000#32, 0x14000000#32, 0x08000000#32,
      0x8C000000#32, 0xAC000000#32].Forall fun p =>
      p &&& 0xFC000000#32 = p ∧ (p ||| 0x03FFFFFF#32) &&& 0xFC000000#32 = p := by decide

/-- AndiClearsHighHalf, OriKeepsHighHalf at the bits where their clauses meet: R164 and R165 with `imm = 0xFFFF` against
all ones and all zeros. -/
theorem witness_immediate_bits_15_16 :
    reg 9 (start 0x3109FFFF [(8, 0xFFFFFFFF)]) = some 0x0000FFFF ∧
    reg 9 (start 0x3509FFFF [(8, 0)]) = some 0x0000FFFF := by decide

/-- JumpGoesToTarget. -/
theorem witness_textBase_aligned : 4 ∣ State.reset.params.textBase := by decide

/-- A state with the default `TEXT_BASE`, the greatest `PROG_CAP` of R193's remark, and `pc` where asked. -/
def jumpState (pc : Int) : State :=
  { State.reset with params := { Config.defaultParams with progCap := 0x03EFFFFF }, pc := pc }

/-- JumpWithDefaultTextBase: the least and the greatest `pc`. -/
theorem witness_jump_range : ∀ pc ∈ [0, 0x03EFFFFF],
    (jumpState pc).params.textBase = 0x00400000 ∧ (jumpState pc).params.progCap < 0x03F00000 ∧
    0 ≤ (jumpState pc).pc ∧ (jumpState pc).pc ≤ (jumpState pc).params.progCap := by decide

/-- LwLoadsStackCell, SwStoresStackCell: base values that give the cell indexes 0, 63 (in range), -1, 64 (out of range)
with offset 0, in a state whose stack segment is in canonical form. -/
theorem witness_stack_indexes :
    State.reset.stack.wf ∧ State.reset.params.stackCap = 64 ∧
    ∀ p ∈ [(0x7FFFEFFC#32, (0 : Int)), (0x7FFFEFBD#32, 63), (0x7FFFEFFD#32, -1), (0x7FFFEFBC#32, 64)],
      p.2 = 0x7FFFEFFC - (((State.reset.writeReg 9 p.1).readReg 9).toNat + (0#16).toNat : Int) ∧
      stackIndex (effectiveAddress ((State.reset.writeReg 9 p.1).readReg 9) 0) = p.2 := by decide

/-- LwLoadsStackCell (M7, M8): the last cell is loaded, the next index faults. -/
theorem witness_lw_clauses :
    reg 10 (withCell 63 0x55 (start 0x8D2A0000 [(9, 0x7FFFEFBD)])) = some 0x55 ∧
    faultAfter (start 0x8D2A0000 [(9, 0x7FFFEFBC)]) = some (some ⟨.stack, 64⟩) := by decide

/-- SwStoresStackCell (M1, M6): cell 0 is stored, an index below the segment faults. -/
theorem witness_sw_clauses :
    cellAfter 0 (start 0xAFA80000 [(8, 0xCAFEBABE)]) = some 0xCAFEBABE ∧
    faultAfter (start 0xAFA8FFFC []) = some (some ⟨.stack, -65532⟩) := by decide

/-- StackReadSeesLastWrite. -/
theorem witness_memWrite_ok : State.reset.stack.wf ∧ ∃ t, State.reset.memWrite 0x7FFFEFFC 7 = .ok t :=
  ⟨by decide, _, rfl⟩

/-- The hypotheses of the service statements on the instruction and the code, for each code and both words. -/
theorem witness_service_codes :
    IsSyscall .syscall ∧ IsSyscall (.syscallR 0 0 31) ∧
    [1#32, 4#32, 5#32, 10#32, 11#32, 0x8000000A#32, 0#32].Forall fun c => (State.reset.writeReg 2 c).readReg 2#5 = c :=
  ⟨.inl rfl, .inr ⟨_, _, _, rfl⟩, by decide⟩

/-- PrintStringPrintsUpToZero: the service's state with the cursor at cell `k`. -/
def printing (k : Int) : State :=
  withText ((State.reset.writeReg 2 4).writeReg 4 (BitVec.ofInt 32 (0x10010000 + k)))

/-- PrintStringPrintsUpToZero: the code, and the cursor at each boundary of the segment. -/
theorem witness_printString_cursor : ∀ k ∈ [(-1 : Int), 0, 2, 63, 64],
    (printing k).readReg 2#5 = 4#32 ∧ k = ((printing k).readReg 4#5).toNat - ((printing k).params.dataBase : Int) := by
  decide

/-- PrintStringPrintsUpToZero, first clause: two characters and then a zero cell in range. -/
theorem witness_printString_zero :
    (∀ j ∈ [0, 1], 0 ≤ (0 : Int) + j ∧ (0 : Int) + j < (printing 0).params.dataCap ∧
      (printing 0).data.read ((0 : Int) + j).toNat ≠ 0#32) ∧
    0 ≤ (0 : Int) + 2 ∧ (0 : Int) + 2 < (printing 0).params.dataCap ∧
    (printing 0).data.read ((0 : Int) + 2).toNat = 0#32 := by decide

/-- PrintStringPrintsUpToZero, second clause: one character (cell 63) and then an index outside; an index outside at
once, below and above. -/
theorem witness_printString_outside :
    (0 ≤ (63 : Int) + 0 ∧ (63 : Int) + 0 < (printing 63).params.dataCap ∧
      (printing 63).data.read ((63 : Int) + 0).toNat ≠ 0#32) ∧
    ¬(0 ≤ (63 : Int) + 1 ∧ (63 : Int) + 1 < (printing 63).params.dataCap) ∧
    ¬(0 ≤ (-1 : Int) ∧ (-1 : Int) < (printing (-1)).params.dataCap) ∧
    ¬(0 ≤ (64 : Int) ∧ (64 : Int) < (printing 64).params.dataCap) := by decide

/-- Y6: below the base. -/
theorem test_print_string_below_base :
    faultAfter (withText (start 0x0C [(2, 4), (4, 0x1000FFFF)])) = some (some ⟨.data, -1⟩) ∧
    outAfter (withText (start 0x0C [(2, 4), (4, 0x1000FFFF)])) = some [] := by decide

/-- A read-integer request, answered by `answers`. -/
def reading (answers : List Word) : State := { State.reset.writeReg 2 5 with input := answers }

/-- ReadIntegerTakesAnswer, OnlyUnansweredReadStops: a request with an answer and one without. -/
theorem witness_readInteger_clauses :
    (reading [7, 8]).readReg 2#5 = 5#32 ∧ (reading [7, 8]).input = 7 :: [8] ∧
    (reading []).readReg 2#5 = 5#32 ∧ (reading []).input = [] := by decide

/-- OnlyUnansweredReadStops, first clause: not a `syscall`; not code 5; an answer is there. -/
theorem witness_completes_hypothesis :
    ¬(IsSyscall (.add 8 9 10) ∧ (reading []).readReg 2#5 = 5#32 ∧ (reading []).input = []) ∧
    ¬(IsSyscall .syscall ∧ State.reset.readReg 2#5 = 5#32 ∧ State.reset.input = []) ∧
    ¬(IsSyscall .syscall ∧ (reading [7]).readReg 2#5 = 5#32 ∧ (reading [7]).input = []) :=
  ⟨fun h => by rcases h.1 with h | ⟨_, _, _, h⟩ <;> exact (nomatch h), fun h => absurd h.2.1 (by decide),
    fun h => absurd h.2.2 (by decide)⟩

/-- SyscallFrameBySummary: a next state for every code, so every clause's condition is met. -/
theorem witness_syscall_next :
    (∃ t, exec .syscall (State.reset.writeReg 2 1) = .next t) ∧ (∃ t, exec .syscall (printing 0) = .next t) ∧
    (∃ t, exec .syscall (reading [7]) = .next t) ∧ (∃ t, exec .syscall (State.reset.writeReg 2 10) = .next t) ∧
    ∃ t, exec (.syscallR 0 0 31) (State.reset.writeReg 2 11) = .next t :=
  ⟨⟨_, rfl⟩, ⟨_, rfl⟩, ⟨_, rfl⟩, ⟨_, rfl⟩, ⟨_, rfl⟩⟩

/-- UnknownWordIsReportedAndSkipped; the second clause of StepRunsDecodedInstruction. -/
theorem witness_unknown_fetched :
    (start 0 []).running ∧ (start 0 []).imem[(start 0 []).pc.toNat]? = some 0#32 ∧ (decode 0#32).mnemonic = .unknown ∧
    decodeWord 0#32 = none := by decide

/-- StepRunsDecodedInstruction, first clause. -/
theorem witness_instruction_fetched :
    (start 0x01095020 []).running ∧ (start 0x01095020 []).imem[(start 0x01095020 []).pc.toNat]? = some 0x01095020#32 ∧
    decodeWord 0x01095020#32 = some (.add 8 9 10) := by decide

/-- StepRunsDecodedInstruction's last clause and EndedRunReportsOutcome: each way the loop condition fails, `pc` at both
boundaries. -/
theorem witness_loop_condition_fails :
    ({ start 0 [] with halted := true }.halted = true) ∧
    ({ start 0 [] with fault := some ⟨.stack, -1⟩ }.halted = false ∧
      { start 0 [] with fault := some ⟨.stack, -1⟩ }.fault = some ⟨.stack, -1⟩) ∧
    ({ start 0 [] with pc := -1 }.halted = false ∧ { start 0 [] with pc := -1 }.fault = none ∧
      { start 0 [] with pc := -1 }.pc < 0) ∧
    ({ start 0 [] with pc := 1 }.halted = false ∧ { start 0 [] with pc := 1 }.fault = none ∧
      ({ start 0 [] with pc := 1 }.imem.length : Int) ≤ { start 0 [] with pc := 1 }.pc) := by decide

/-- A launch with capacities of two cells, the given program and data, and open contents of no particular value. -/
def smallLaunch (program data : List Word) : Launch where
  params := ⟨0x00400000, 0x10010000, 2, 2, 2, true⟩
  program := program
  data := data
  input := [7]
  initRegs := fun r => r.setWidth 32
  initStack := fun k => BitVec.ofNat 32 k
  initDataFill := fun _ => 3

/-- EmptyProgramEndsAtOnce, LaunchMakesResetState, LaunchMeetsInvariant, RunFromLaunchKeepsInvariant: launches in the
contract, empty and at full capacity. -/
theorem witness_launch :
    (smallLaunch [] []).program = [] ∧ (∃ s, State.launch (smallLaunch [] []) = .next s) ∧
    (smallLaunch [0, 12] [1, 2]).params.wf ∧
    (smallLaunch [0, 12] [1, 2]).program.length ≤ (smallLaunch [0, 12] [1, 2]).params.progCap ∧
    (smallLaunch [0, 12] [1, 2]).data.length ≤ (smallLaunch [0, 12] [1, 2]).params.dataCap ∧
    (∃ s, State.launch (smallLaunch [0, 12] [1, 2]) = .next s) :=
  ⟨rfl, ⟨_, rfl⟩, by decide, by decide, by decide, ⟨_, rfl⟩⟩

/-- LaunchMakesResetState's index ranges: a data word, a fill cell, and the last stack cell. -/
theorem witness_launch_indexes :
    (smallLaunch [] [1]).data[0]? = some 1 ∧ (smallLaunch [] [1]).data.length ≤ 1 ∧ 1 < (smallLaunch [] [1]).params.dataCap ∧
    1 < (smallLaunch [] [1]).params.stackCap := by decide

/-- LaunchOutOfContractIsRefused: both sides of it, one word past each capacity and a misaligned `TEXT_BASE`. -/
theorem witness_launch_refused :
    State.launch (smallLaunch [0, 0, 0] []) = .refused .programTooLong ∧
    State.launch (smallLaunch [] [0, 0, 0]) = .refused .dataTooLong ∧
    State.launch { smallLaunch [] [] with params := ⟨2, 0, 2, 2, 2, true⟩ } = .refused .parametersOutOfContract :=
  ⟨rfl, rfl, rfl⟩

/-- StepKeepsInvariant: a state in the invariant that steps to a next state. -/
theorem witness_inv_step : (start 0x24080005 []).Inv ∧ ∃ t, step (start 0x24080005 []) = .next t := by
  refine ⟨⟨by decide, by decide, by decide, by decide, by decide, by decide, by decide, by decide, ?_, ?_⟩, _, rfl⟩
  · exact fun f h => nomatch h
  · exact fun e h => nomatch h

/-- StepKeepsInvariant in a state with a store, an answer and an event behind it. -/
theorem witness_inv_step_store :
    let s := withCell 5 7 (start 0xAFA80000 [])
    s.Inv ∧ ∃ t, step s = .next t := by
  refine ⟨⟨by decide, by decide, by decide, by decide, by decide, by decide, by decide, by decide, ?_, ?_⟩, _, rfl⟩
  · exact fun f h => nomatch h
  · exact fun e h => nomatch h

/-- ProgramIsNeitherWrittenNorRead, DataIsReadByPrintStringOnly, StackIsReachedByLoadStoreOnly,
OutputGrowsAndInputShrinks, ZeroRegisterReadsZero: a step and an instruction with a next state. -/
theorem witness_step_and_exec :
    (∃ t, step (start 0x01095020 []) = .next t) ∧ (∃ t, exec (.add 8 9 10) (reading []) = .next t) ∧
    (start 0x01095020 []).params.zeroHardwired = true := ⟨⟨_, rfl⟩, ⟨_, rfl⟩, rfl⟩

/-- StackIsReachedByLoadStoreOnly, DataIsReadByPrintStringOnly: `add` is none of the instructions they except. -/
theorem witness_add_is_no_exception :
    (∀ rs rt imm, Instr.add 8 9 10 ≠ .lw rs rt imm) ∧ (∀ rs rt imm, Instr.add 8 9 10 ≠ .sw rs rt imm) ∧
    ¬(IsSyscall (.add 8 9 10) ∧ (printing 0).readReg 2#5 = 4#32) :=
  ⟨nofun, nofun, fun h => by rcases h.1 with h | ⟨_, _, _, h⟩ <;> exact nomatch h⟩

/-- PcAfterStep: a fetched word with a next state for each case. -/
theorem witness_pc_cases :
    ∀ w ∈ [0x11090002, 0x1509FFFE, 0x08100003, 0x24080005, 0x00000000],
      (start w []).imem[(start w []).pc.toNat]? = some (BitVec.ofNat 32 w) ∧ (next (start w [])).isSome := by decide

/-- OnlyTerminateHalts: a step that halts and one that does not. -/
theorem witness_halt_and_not :
    (next (start 0x0C [(2, 10)])).map (·.halted) = some true ∧ (next (start 0x0C [(2, 11)])).map (·.halted) = some false := by
  decide

/-- FaultIsPrecise: steps that fault on the stack and on the data segment (M9, Y6). -/
theorem witness_fault_steps :
    faultAfter (start 0x8C0A0000 []) = some (some ⟨.stack, 2147479548⟩) ∧
    faultAfter (start 0x0C [(2, 4), (4, 0x1000FFFF)]) = some (some ⟨.data, -1⟩) := by decide

/-- RegisterWriteRule: each clause's condition. -/
theorem witness_register_write :
    (31#5 : Reg) ≠ 0#5 ∧ State.reset.params.zeroHardwired = true ∧ (zeroWritable State.reset).params.zeroHardwired = false := by
  decide

/-- RegistersWrittenByTable: a next state and a register that the instruction may not write. -/
theorem witness_may_not_write :
    (∃ t, exec (.add 8 9 10) State.reset = .next t) ∧ ¬ MayWrite (.add 8 9 10) State.reset 9 :=
  ⟨⟨_, rfl⟩, fun h => by
    rcases h with h | ⟨h, -⟩
    · exact absurd h (by decide)
    · rcases h with h | ⟨_, _, _, h⟩ <;> exact nomatch h⟩

/-- RunEndsWhereLoopConditionFails: a run that has ended, for each outcome (E1; a terminate; M9). -/
theorem witness_ended_run :
    run 1 State.reset = .ended .unsafeTermination State.reset ∧
    (∃ last, run 2 (start 0x0C [(2, 10)]) = .ended .success last) ∧
    ∃ last, run 2 (start 0x8C0A0000 []) = .ended (.fault ⟨.stack, 2147479548⟩) last :=
  ⟨by decide, ⟨_, rfl⟩, ⟨_, rfl⟩⟩

/-- EncodingFunctionsInvertDecoder: the codes its clauses name, and words on both sides of its last clause (unread bits
zero; not zero; unknown). -/
theorem witness_canonical_words :
    0x2A#6 ∈ [0x20#6, 0x22#6, 0x24#6, 0x25#6, 0x2A#6] ∧
    0x0F#6 ∈ [0x04#6, 0x05#6, 0x09#6, 0x0C#6, 0x0D#6, 0x0F#6, 0x23#6, 0x2B#6] ∧
    (decode 0x3C081001#32).unreadBits &&& 0x3C081001#32 = 0#32 ∧
    (decode 0x3FE8FFFF#32).unreadBits &&& 0x3FE8FFFF#32 = 0x03E00000#32 ∧
    (decode 0x0000F80C#32).unreadBits &&& 0x0000F80C#32 = 0x0000F800#32 ∧
    (decode 0x0C100000#32).mnemonic = .unknown := by decide

/-- SuccessComesFromTerminateOnly (E3): a launch whose run ends with `Success`. -/
theorem witness_success_run :
    ∃ s last, State.launch (smallLaunch [0x2402000A, 0x0000000C] []) = .next s ∧ run 3 s = .ended .success last :=
  ⟨_, _, rfl, rfl⟩

end Sys2Proof.Tests
end

/-! PROOFS. The architectural state (10_state.md): reset, register writes, `pc` after a step, and the instruction
sequence no instruction reaches. -/

namespace Sys2Proof.Machine

/-! ### Reset (R41, R149) -/

/-- A launch in the contract of R10 and R40 is accepted. -/
theorem State.launch_accepts {l : Launch} (hw : l.params.wf) (hp : l.program.length ≤ l.params.progCap)
    (hd : l.data.length ≤ l.params.dataCap) : ∃ s, State.launch l = .next s := by
  unfold State.launch
  rw [if_neg (not_not.2 hw), if_neg (Nat.not_lt.2 hp), if_neg (Nat.not_lt.2 hd)]
  exact ⟨_, rfl⟩

/-- What every register reads after a launch, under both values of `ZERO_HARDWIRED` (R41). -/
theorem State.readReg_of_launch {l : Launch} {s : State} (h : State.launch l = .next s) (r : Reg) :
    s.readReg r = if r = 0#5 then 0#32 else if r = 29#5 then Config.stackTop else l.initRegs r := by
  obtain ⟨-, -, -, -, hregs, -⟩ := State.launch_eq_next h
  by_cases hz : s.hardZero r = true
  · rw [State.readReg_hardZero s hz, if_pos ((s.hardZero_iff r).1 hz).2]
  · have h0 : r.toNat = 0 ↔ r = 0#5 := BitVec.toNat_inj (y := 0#5)
    have h29 : r.toNat = 29 ↔ r = 29#5 := BitVec.toNat_inj (y := 29#5)
    simp only [State.readReg, if_neg hz, hregs, Launch.regs_get, h0, h29, BitVec.ofNat_toNat, BitVec.setWidth_eq]
    by_cases hr : r = 0#5
    · subst hr; rfl
    · simp only [if_neg hr]

/-- A data cell that was loaded holds its data word. -/
theorem Launch.dataWord_of_loaded {l : Launch} {k : Nat} {v : Word} (h : l.data[k]? = some v) : l.dataWord k = v := by
  simp [Launch.dataWord, h]

/-- A data cell beyond the loaded data holds the fill. -/
theorem Launch.dataWord_of_beyond {l : Launch} {k : Nat} (h : l.data.length ≤ k) : l.dataWord k = l.initDataFill k := by
  simp [Launch.dataWord, List.getElem?_eq_none h]

/-- Settles O39: `launch_eq_next` gives the fields, and each segment is read back by `Memory.read_fill`. -/
theorem launchMakesResetState : Obligations.LaunchMakesResetState := by
  intro l hw hp hd
  obtain ⟨s, hs⟩ := State.launch_accepts hw hp hd
  obtain ⟨-, -, -, hparams, -, hpc, himem, hdata, hstack, hhalted, hfault, hout, hinput⟩ := State.launch_eq_next hs
  have hreg := State.readReg_of_launch hs
  have hcell : ∀ k < l.params.dataCap, s.data.read k = l.dataWord k := fun k hk => by
    rw [hdata, Memory.read_fill _ (Nat.zero_le k) (by omega)]
  refine ⟨s, hs, hreg 0#5, hreg 29#5, fun r h0 h29 => ?_, hpc, hhalted, hfault, hout, himem, fun k v hk => ?_,
    fun k hk hcap => ?_, fun k hk => ?_, hparams, hinput⟩
  · rw [hreg, if_neg h0, if_neg h29]
  · have hlt : k < l.data.length := (List.getElem?_eq_some_iff.1 hk).1
    rw [hcell k (by omega), Launch.dataWord_of_loaded hk]
  · rw [hcell k hcap, Launch.dataWord_of_beyond hk]
  · rw [hstack, Memory.read_fill _ (Nat.zero_le k) (by omega)]

/-! ### Register writes (R23) -/

/-- Settles O54, from what any register reads after a write. -/
theorem registerWriteRule : Obligations.RegisterWriteRule := by
  intro s r v
  refine ⟨fun hr => ?_, fun hz => ?_, fun hz => ?_, fun q hq => s.readReg_writeReg_other v hq⟩
  · rw [State.readReg_writeReg, if_pos rfl, if_neg fun h => hr h.2]
  · have h0 : s.hardZero 0#5 = true := (s.hardZero_iff 0#5).2 ⟨hz, rfl⟩
    exact ⟨s.writeReg_hardZero h0 v, s.readReg_hardZero h0⟩
  · rw [State.readReg_writeReg, if_pos rfl, if_neg (by simp [hz])]

/-! ### The program counter (R26) -/

/-- The `pc` an instruction leaves, from the state after the default advance: a transfer's target, or the advance. -/
def pcAfterExec (i : Instr) (s : State) : Int :=
  match i with
  | .beq rs rt imm => if s.readReg rs = s.readReg rt then branchTarget s.pc imm else s.pc
  | .bne rs rt imm => if s.readReg rs = s.readReg rt then s.pc else branchTarget s.pc imm
  | .j target => jumpTarget s.params.textBase s.pc target
  | _ => s.pc

/-- Only the transfers write `pc`, and a fault leaves the default advance (R26). -/
theorem exec_pc {i : Instr} {s t : State} (h : exec i s = .next t) : t.pc = pcAfterExec i s := by
  rcases exec_cases h with ⟨r, v, rfl, hd⟩ |
    ⟨p, rfl, ⟨rs, rt, imm, rfl, he, rfl⟩ | ⟨rs, rt, imm, rfl, he, rfl⟩ | ⟨target, rfl, rfl⟩⟩ |
    ⟨rfl, ⟨rs, rt, imm, rfl, he⟩ | ⟨rs, rt, imm, rfl, he⟩⟩ |
    ⟨a, rfl, -, ⟨rs, rt, imm, rfl, -⟩ | ⟨rs, rt, imm, rfl, -⟩⟩ |
    ⟨rs, rt, imm, a, rfl, -, -, -, rfl⟩ | ⟨hi, hs⟩
  case inl =>
    cases i with
    | beq | bne | j => exact nomatch hd
    | _ => rfl
  case inr.inr.inr.inr.inr =>
    obtain ⟨-, -, -, -, hpc⟩ := service_keeps hs
    rcases hi with rfl | ⟨_, _, _, rfl⟩ <;> exact hpc
  all_goals simp [pcAfterExec, *]

/-- Settles O49: the `pc` of the fetched word's instruction, or of the report of an unknown word. -/
theorem pcAfterStep : Obligations.PcAfterStep := by
  intro s t w hw hstep
  obtain ⟨w', -, hw', hexec⟩ := step_eq_next hstep
  obtain rfl : w = w' := Option.some.inj (hw.symm.trans hw')
  rcases execWord_eq_next hexec with ⟨i, hi, hx⟩ | ⟨hn, rfl⟩
  · have hpc := exec_pc hx
    rw [hi]
    cases i with
    | beq rs rt imm | bne rs rt imm =>
      refine hpc.trans ?_
      rw [pcAfterExec, State.readReg_advance, State.readReg_advance, signed16_eq_sext16]
      split <;> simp [branchTarget]
    | _ => exact hpc
  · rw [hn]
    rfl

/-! ### The instruction sequence (R31) -/

/-- An instruction leaves the instruction sequence as it is (R31). -/
theorem exec_imem {i : Instr} {s t : State} (h : exec i s = .next t) : t.imem = s.imem := by
  rcases exec_cases h with ⟨_, _, rfl, -⟩ | ⟨_, rfl, -⟩ | ⟨rfl, -⟩ | ⟨_, rfl, -⟩ | ⟨_, _, _, _, -, -, -, -, rfl⟩ | ⟨-, hs⟩
  case inr.inr.inr.inr.inr =>
    obtain ⟨-, himem, -⟩ := service_keeps hs
    exact himem
  all_goals rfl

/-- A step leaves the instruction sequence as it is (R31). -/
theorem step_imem {s t : State} (h : step s = .next t) : t.imem = s.imem := by
  obtain ⟨w, -, -, hexec⟩ := step_eq_next h
  rcases execWord_eq_next hexec with ⟨i, -, hx⟩ | ⟨-, rfl⟩
  · exact (exec_imem hx).trans s.advance_imem
  · rfl

/-- `s` with another instruction sequence in its place. -/
def State.withImem (p : List Word) (s : State) : State := { s with imem := p }

@[simp] theorem State.withImem_input (s : State) (p : List Word) : (s.withImem p).input = s.input := rfl

@[simp] theorem State.readReg_withImem (s : State) (p : List Word) (q : Reg) :
    (s.withImem p).readReg q = s.readReg q := rfl

@[simp] theorem State.memRead_withImem (s : State) (p : List Word) (a : Int) :
    (s.withImem p).memRead a = s.memRead a := rfl

theorem State.memWrite_withImem (s : State) (p : List Word) (a : Int) (v : Word) :
    (s.withImem p).memWrite a v = (s.memWrite a v).map (State.withImem p) := by
  rw [State.memWrite, State.memWrite, apply_ite (Except.map _)]
  rfl

/-- An outcome whose next state, if it has one, is changed by `f`; a stop stays the stop it is. -/
def mapNext (f : State → State) : Host.Outcome State Fault Refusal → Host.Outcome State Fault Refusal
  | .next t => .next (f t)
  | .fault r => .fault r
  | .refused r => .refused r

theorem printString_withImem (s : State) (p : List Word) : printString (s.withImem p) = (printString s).withImem p := by
  have hscan : ∀ n k, scanString (s.withImem p) n k = scanString s n k := scanString_congr fun _ => rfl
  simp only [printString, printStringFrom_eq, hscan]
  rfl

theorem readInteger_withImem (s : State) (p : List Word) :
    readInteger (s.withImem p) = mapNext (State.withImem p) (readInteger s) := by
  simp only [readInteger, State.readInt, State.withImem_input]
  cases s.input <;> rfl

/-- No service reads the instruction sequence. -/
theorem service_withImem (s : State) (p : List Word) :
    service (s.withImem p) = mapNext (State.withImem p) (service s) := by
  rw [service, service, State.readReg_withImem, printString_withImem, readInteger_withImem]
  split_ifs <;> rfl

/-- No instruction reads the instruction sequence: it does the same whatever the sequence holds (R31). -/
theorem exec_withImem (i : Instr) (s : State) (p : List Word) :
    exec i (s.withImem p) = mapNext (State.withImem p) (exec i s) := by
  cases i with
  | syscall | syscallR => exact service_withImem s p
  | beq | bne =>
    simp only [exec, execBeq, execBne]
    rw [State.readReg_withImem, State.readReg_withImem]
    split <;> rfl
  | lw rs rt imm =>
    simp only [exec, execLw, State.readReg_withImem, State.memRead_withImem]
    split <;> rfl
  | sw rs rt imm =>
    simp only [exec, execSw, State.readReg_withImem, State.memWrite_withImem]
    cases s.memWrite (effectiveAddress (s.readReg rs) imm) (s.readReg rt) <;> rfl
  | _ => rfl

/-- Settles O46: the frame of a step, and `exec` commuting with a change of the instruction sequence. -/
theorem programIsNeitherWrittenNorRead : Obligations.ProgramIsNeitherWrittenNorRead :=
  ⟨fun _ _ => step_imem, fun i s _ p h => (exec_withImem i s p).trans (congrArg (mapNext (State.withImem p)) h)⟩

end Sys2Proof.Machine

/-! PROOFS. The decoder and the encoding functions (30_encoding.md sections 2 to 5, 40_decoder.md): the format and the
fields of every word, the two mnemonic tables, and R103's canonical words. -/

namespace Sys2Proof

/-! ### Fields, by shift and mask (R82 to R89) -/

/-- A field of a word is the word shifted down to the field's lowest bit, under a mask of the field's width. -/
theorem setWidth_extractLsb'_eq_shift_and_mask (w : Word) (start : Nat) {len : Nat} (hlen : len ≤ 32) :
    (w.extractLsb' start len).setWidth 32 = (w >>> start) &&& BitVec.ofNat 32 (2 ^ len - 1) := by
  have hpow : 2 ^ len ≤ 2 ^ 32 := Nat.pow_le_pow_right (by decide) hlen
  have hpos : 0 < 2 ^ len := Nat.two_pow_pos len
  have hfield : (w.toNat >>> start) % 2 ^ len < 2 ^ 32 := (Nat.mod_lt _ hpos).trans_le hpow
  have hmask : 2 ^ len - 1 < 2 ^ 32 := (Nat.sub_lt hpos Nat.one_pos).trans_le hpow
  apply BitVec.eq_of_toNat_eq
  rw [BitVec.toNat_setWidth, BitVec.extractLsb'_toNat, Nat.mod_eq_of_lt hfield, BitVec.toNat_and,
    BitVec.toNat_ushiftRight, BitVec.toNat_ofNat, Nat.mod_eq_of_lt hmask, Nat.and_two_pow_sub_one_eq_mod]

/-- A field at the low end of the word is the word under the mask alone. -/
theorem setWidth_extractLsb'_zero_eq_mask (w : Word) {len : Nat} (hlen : len ≤ 32) :
    (w.extractLsb' 0 len).setWidth 32 = w &&& BitVec.ofNat 32 (2 ^ len - 1) :=
  (setWidth_extractLsb'_eq_shift_and_mask w 0 hlen).trans (by rw [BitVec.ushiftRight_zero])

/-- R82: the shift by 26 leaves the opcode alone, so it needs no mask. -/
theorem setWidth_opcodeOf (w : Word) : (opcodeOf w).setWidth 32 = w >>> 26 := by
  apply BitVec.eq_of_toNat_eq
  simp only [opcodeOf, BitVec.toNat_setWidth, BitVec.extractLsb'_toNat, BitVec.toNat_ushiftRight,
    Nat.shiftRight_eq_div_pow]
  omega

/-- R81's tests of `w >>> 26` are tests of the opcode field. -/
theorem ushiftRight_26_eq_iff (w : Word) (o : BitVec 6) : w >>> 26 = o.setWidth 32 ↔ opcodeOf w = o := by
  rw [← setWidth_opcodeOf]
  refine ⟨fun h => ?_, fun h => by rw [h]⟩
  simpa using congrArg (BitVec.setWidth 6) h

/-! ### The four formats (R81, R121) -/

/-- The literal is the one word of format `Syscall` (R81 test 1, R94). -/
theorem decode_syscallWord : decode syscallWord = .syscall 0x00#6 0x0C#6 .syscall := by decide

/-- Every word is of one of the four formats, each with its own test and value. -/
theorem decode_cases (w : Word) :
    (w = syscallWord ∧ decode w = .syscall 0x00#6 0x0C#6 .syscall) ∨
    (w ≠ syscallWord ∧ opcodeOf w = 0x00#6 ∧
      decode w = .r 0x00#6 (rsOf w) (rtOf w) (rdOf w) 0#5 (functOf w) (functTable (functOf w))) ∨
    (opcodeOf w = 0x02#6 ∧ decode w = .j 0x02#6 (targetOf w) .j) ∨
    (opcodeOf w ≠ 0x00#6 ∧ opcodeOf w ≠ 0x02#6 ∧
      decode w = .i (opcodeOf w) (rsOf w) (rtOf w) (immOf w) (opcodeTable (opcodeOf w))) := by
  by_cases hw : w = syscallWord
  · exact .inl ⟨hw, hw ▸ decode_syscallWord⟩
  by_cases h0 : opcodeOf w = 0x00#6
  · exact .inr (.inl ⟨hw, h0, decode_R hw h0⟩)
  by_cases h2 : opcodeOf w = 0x02#6
  · exact .inr (.inr (.inl ⟨h2, decode_J h2⟩))
  · exact .inr (.inr (.inr ⟨h0, h2, decode_I h0 h2⟩))

/-- Settles O1: each test is one of the opcode field, and each field of the value a shift and a mask of the word. -/
theorem decodeFollowsTestsAndSlices : Obligations.DecodeFollowsTestsAndSlices := by
  intro w
  have hrs : (rsOf w).setWidth 32 = (w >>> 21) &&& 0x1F#32 := setWidth_extractLsb'_eq_shift_and_mask w 21 (by decide)
  have hrt : (rtOf w).setWidth 32 = (w >>> 16) &&& 0x1F#32 := setWidth_extractLsb'_eq_shift_and_mask w 16 (by decide)
  have hrd : (rdOf w).setWidth 32 = (w >>> 11) &&& 0x1F#32 := setWidth_extractLsb'_eq_shift_and_mask w 11 (by decide)
  have hfunct : (functOf w).setWidth 32 = w &&& 0x3F#32 := setWidth_extractLsb'_zero_eq_mask w (by decide)
  have himm : (immOf w).setWidth 32 = w &&& 0xFFFF#32 := setWidth_extractLsb'_zero_eq_mask w (by decide)
  have htarget : (targetOf w).setWidth 32 = w &&& 0x03FFFFFF#32 := setWidth_extractLsb'_zero_eq_mask w (by decide)
  have h0 : w >>> 26 = 0#32 ↔ opcodeOf w = 0x00#6 := ushiftRight_26_eq_iff w 0x00#6
  have h2 : w >>> 26 = 2#32 ↔ opcodeOf w = 0x02#6 := ushiftRight_26_eq_iff w 0x02#6
  exact ⟨fun hw => hw ▸ decode_syscallWord,
    fun hw ho => ⟨_, _, _, _, decode_R hw (h0.1 ho), hrs, hrt, hrd, hfunct⟩,
    fun ho => ⟨_, decode_J (h2.1 ho), htarget⟩,
    fun ho₀ ho₂ => ⟨_, _, _, _, decode_I (mt h0.2 ho₀) (mt h2.2 ho₂), setWidth_opcodeOf w, hrs, hrt, himm⟩⟩

/-! ### The mnemonic (R95 to R97) -/

/-- Formats `R` and `Syscall` take the mnemonic from the function code, formats `I` and `J` from the opcode (R95). -/
theorem mnemonic_decode (w : Word) : (decode w).mnemonic =
    if (decode w).format = .r ∨ (decode w).format = .syscall then functTable (functOf w)
    else opcodeTable (opcodeOf w) := by
  rcases decode_cases w with ⟨rfl, h⟩ | ⟨-, -, h⟩ | ⟨ho, h⟩ | ⟨-, -, h⟩
  · decide
  · rw [h]; rfl
  · rw [h, ho]; rfl
  · rw [h]; rfl

/-- Of the mnemonics format `R` may carry, only `unknown` names no row. -/
theorem instrR_eq_none {m : Mnemonic} (hm : m.inFormatR = true) (rs rt rd : Reg) :
    instrR m rs rt rd = none ↔ m = .unknown := by
  cases m with
  | unknown => exact iff_of_true rfl rfl
  | add | sub | and | or | slt | syscall => exact iff_of_false nofun nofun
  | addiu | andi | ori | lui | beq | bne | lw | sw | j => exact nomatch hm

/-- Of the mnemonics format `I` may carry, only `unknown` names no row. -/
theorem instrI_eq_none {m : Mnemonic} (hm : m.inFormatI = true) (rs rt : Reg) (imm : Imm16) :
    instrI m rs rt imm = none ↔ m = .unknown := by
  cases m with
  | unknown => exact iff_of_true rfl rfl
  | addiu | andi | ori | lui | beq | bne | lw | sw => exact iff_of_false nofun nofun
  | add | sub | and | or | slt | syscall | j => exact nomatch hm

/-- A word holds no instruction exactly when its mnemonic is `unknown` (R95, R98). -/
theorem decodeWord_eq_none {w : Word} : decodeWord w = none ↔ (decode w).mnemonic = .unknown := by
  rw [decodeWord]
  rcases decode_cases w with ⟨-, hd⟩ | ⟨-, -, hd⟩ | ⟨-, hd⟩ | ⟨h0, h2, hd⟩ <;> rw [hd]
  · exact iff_of_false nofun nofun
  · exact instrR_eq_none (functTable_inFormatR _) _ _ _
  · exact iff_of_false nofun nofun
  · exact instrI_eq_none (opcodeTable_inFormatI _ h0 h2) _ _ _

/-- Settles O2: the tables have 64 entries each, and every one is as listed. -/
theorem mnemonicComesFromTables : Obligations.MnemonicComesFromTables :=
  ⟨mnemonic_decode, by decide, by decide⟩

/-! ### Words and their encoding functions (R103) -/

/-- R103's formula for `enc_R`. -/
theorem encR_eq_shift_or (funct : BitVec 6) (rs rt rd : Reg) : encR funct rs rt rd 0#5 =
    (rs.setWidth 32 <<< 21) ||| (rt.setWidth 32 <<< 16) ||| (rd.setWidth 32 <<< 11) ||| funct.setWidth 32 := by
  rw [encR, ← BitVec.setWidth_eq (0#6 ++ rs ++ rt ++ rd ++ 0#5 ++ funct)]
  simp only [BitVec.setWidth_append_eq_shiftLeft_setWidth_or, BitVec.shiftLeft_or_distrib, ← BitVec.shiftLeft_add]
  simp

/-- R103's formula for `enc_I`. -/
theorem encI_eq_shift_or (opcode : BitVec 6) (rs rt : Reg) (imm : Imm16) : encI opcode rs rt imm =
    (opcode.setWidth 32 <<< 26) ||| (rs.setWidth 32 <<< 21) ||| (rt.setWidth 32 <<< 16) ||| imm.setWidth 32 := by
  rw [encI, ← BitVec.setWidth_eq (opcode ++ rs ++ rt ++ imm)]
  exact BitVec.setWidth_append_append_append_eq_shiftLeft_setWidth_or

/-- R103's formula for `enc_J`. -/
theorem encJ_eq_shift_or (target : Target26) : encJ target = (2#32 <<< 26) ||| target.setWidth 32 := by
  rw [encJ, ← BitVec.setWidth_eq (0x02#6 ++ target)]
  exact BitVec.setWidth_append_eq_shiftLeft_setWidth_or

/-- The layout of R90 covers the word. -/
theorem fields_R_append (w : Word) :
    opcodeOf w ++ rsOf w ++ rtOf w ++ rdOf w ++ w.extractLsb' 6 5 ++ functOf w = w := by
  unfold opcodeOf rsOf rtOf rdOf functOf
  rw [BitVec.extractLsb'_append_extractLsb'_eq_extractLsb' (show 26 = 21 + 5 from rfl),
    BitVec.extractLsb'_append_extractLsb'_eq_extractLsb' (show 21 = 16 + 5 from rfl),
    BitVec.extractLsb'_append_extractLsb'_eq_extractLsb' (show 16 = 11 + 5 from rfl),
    BitVec.extractLsb'_append_extractLsb'_eq_extractLsb' (show 11 = 6 + 5 from rfl),
    BitVec.extractLsb'_append_extractLsb'_eq_extractLsb' (show 6 = 0 + 6 from rfl)]
  exact BitVec.extractLsb'_eq_self

/-- The layout of R91 covers the word. -/
theorem encI_fields (w : Word) : encI (opcodeOf w) (rsOf w) (rtOf w) (immOf w) = w := by
  unfold encI opcodeOf rsOf rtOf immOf
  rw [BitVec.extractLsb'_append_extractLsb'_eq_extractLsb' (show 26 = 21 + 5 from rfl),
    BitVec.extractLsb'_append_extractLsb'_eq_extractLsb' (show 21 = 16 + 5 from rfl),
    BitVec.extractLsb'_append_extractLsb'_eq_extractLsb' (show 16 = 0 + 16 from rfl)]
  exact BitVec.extractLsb'_eq_self

/-- The layout of R92 covers a word of opcode 2. -/
theorem encJ_targetOf {w : Word} (ho : opcodeOf w = 0x02#6) : encJ (targetOf w) = w := by
  rw [encJ, ← ho, opcodeOf, targetOf,
    BitVec.extractLsb'_append_extractLsb'_eq_extractLsb' (show 26 = 0 + 26 from rfl)]
  exact BitVec.extractLsb'_eq_self

/-- A mask over the register fields of an opcode-0 word, with bits 10 to 6 cleared, masks each field on its own. -/
theorem and_mask_R {w : Word} (ho : opcodeOf w = 0x00#6) (rs rt rd : Reg) :
    w &&& (BitVec.allOnes 6 ++ rs ++ rt ++ rd ++ 0#5 ++ BitVec.allOnes 6) =
      encR (functOf w) (rsOf w &&& rs) (rtOf w &&& rt) (rdOf w &&& rd) 0#5 := by
  conv_lhs => rw [← fields_R_append w]
  iterate 5 rw [BitVec.and_append]
  rw [ho, BitVec.and_allOnes, BitVec.and_allOnes, BitVec.and_zero, encR]

/-- `enc_R` of an opcode-0 word's fields is the word with bits 10 to 6 cleared. -/
theorem encR_fields {w : Word} (ho : opcodeOf w = 0x00#6) :
    encR (functOf w) (rsOf w) (rtOf w) (rdOf w) 0#5 = w &&& ~~~0x000007C0#32 := by
  have h := and_mask_R ho (BitVec.allOnes 5) (BitVec.allOnes 5) (BitVec.allOnes 5)
  simp only [BitVec.and_allOnes] at h
  exact h.symm

/-- `enc_R` of an opcode-0 word's function code alone is the word with bits 25 to 6 cleared. -/
theorem encR_functOf {w : Word} (ho : opcodeOf w = 0x00#6) :
    encR (functOf w) 0#5 0#5 0#5 0#5 = w &&& ~~~0x03FFFFC0#32 := by
  have h := and_mask_R ho 0#5 0#5 0#5
  simp only [BitVec.and_zero] at h
  exact h.symm

/-- `enc_I` of a word's fields with `rs` 0 is the word with bits 25 to 21 cleared. -/
theorem encI_fields_rs_zero (w : Word) :
    encI (opcodeOf w) 0#5 (rtOf w) (immOf w) = w &&& ~~~0x03E00000#32 := by
  have hmask : ~~~0x03E00000#32 = BitVec.allOnes 6 ++ 0#5 ++ BitVec.allOnes 5 ++ BitVec.allOnes 16 := by decide
  conv_rhs => rw [← encI_fields w, hmask, encI]
  iterate 3 rw [BitVec.and_append]
  simp only [BitVec.and_allOnes, BitVec.and_zero, encI]

/-- The words `enc_R` makes are of format `R`, with the fields they were made from. -/
theorem decode_encR {funct : BitVec 6} (hf : funct ≠ 0x0C#6) (rs rt rd : Reg) (unread : BitVec 5) :
    decode (encR funct rs rt rd unread) = .r 0x00#6 rs rt rd 0#5 funct (functTable funct) := by
  simp [decode_R (encR_ne_syscallWord hf rs rt rd unread)]

/-- The words `enc_I` makes are of format `I`, with the fields they were made from. -/
theorem decode_encI {opcode : BitVec 6} (h0 : opcode ≠ 0x00#6) (h2 : opcode ≠ 0x02#6) (rs rt : Reg) (imm : Imm16) :
    decode (encI opcode rs rt imm) = .i opcode rs rt imm (opcodeTable opcode) := by
  simp [decode_I, h0, h2]

/-- The words `enc_J` makes are of format `J`, with the target they were made from. -/
theorem decode_encJ (target : Target26) : decode (encJ target) = .j 0x02#6 target .j := by
  simp [decode_J]

/-! ### The canonical word of what a word decodes to (R101, R103) -/

/-- Clearing a word's bits under a mask leaves the word as it is exactly when they are zero already. -/
theorem and_not_eq_self_iff (w mask : Word) : w &&& ~~~mask = w ↔ w &&& mask = 0#32 := by
  constructor <;> intro h
  · rw [← h, BitVec.and_assoc, BitVec.and_comm (~~~mask), BitVec.and_not_self]
    exact BitVec.and_zero
  · refine BitVec.eq_of_getElem_eq fun k hk => ?_
    have hbit : (w &&& mask)[k] = false := by rw [h, BitVec.getElem_zero]
    simpa using hbit

/-- A word with no unread bits is left as it is. -/
theorem and_not_zero (w : Word) : w &&& ~~~0#32 = w := BitVec.and_allOnes

/-- Format `R`: the canonical word is the word itself with its unread bits cleared. -/
theorem encCanonical_of_instrR {w : Word} {i : Instr} (ho : opcodeOf w = 0x00#6)
    (h : instrR (functTable (functOf w)) (rsOf w) (rtOf w) (rdOf w) = some i) :
    encCanonical i =
      w &&& ~~~(Instruction.r 0x00#6 (rsOf w) (rtOf w) (rdOf w) 0#5 (functOf w)
        (functTable (functOf w))).unreadBits := by
  have hoperation := encR_fields ho
  have hsyscall := encR_functOf ho
  generalize functOf w = f at h hoperation hsyscall ⊢
  rw [functTable] at h
  repeat' split at h
  all_goals cases h
  all_goals subst f
  exacts [hoperation, hoperation, hoperation, hoperation, hoperation, hsyscall]

/-- Format `I`: the canonical word is the word itself with its unread bits cleared. -/
theorem encCanonical_of_instrI {w : Word} {i : Instr}
    (h : instrI (opcodeTable (opcodeOf w)) (rsOf w) (rtOf w) (immOf w) = some i) :
    encCanonical i =
      w &&& ~~~(Instruction.i (opcodeOf w) (rsOf w) (rtOf w) (immOf w) (opcodeTable (opcodeOf w))).unreadBits := by
  have hlui := encI_fields_rs_zero w
  have hother := (encI_fields w).trans (and_not_zero w).symm
  generalize opcodeOf w = o at h hlui hother ⊢
  rw [opcodeTable] at h
  repeat' split at h
  all_goals cases h
  all_goals subst o
  exacts [hother, hother, hother, hother, hlui, hother, hother, hother]

/-- R103's `enc` after the decoder clears exactly the bits of the word that are not read. -/
theorem encCanonical_of_decodeWord {w : Word} {i : Instr} (h : decodeWord w = some i) :
    encCanonical i = w &&& ~~~(decode w).unreadBits := by
  rw [decodeWord] at h
  rcases decode_cases w with ⟨rfl, hd⟩ | ⟨-, ho, hd⟩ | ⟨ho, hd⟩ | ⟨-, -, hd⟩ <;> rw [hd] at h ⊢
  · cases h
    rfl
  · exact encCanonical_of_instrR ho h
  · cases h
    exact (encJ_targetOf ho).trans (and_not_zero w).symm
  · exact encCanonical_of_instrI h

/-- The other direction of R103. -/
theorem encCanonical_decodeWord_eq_self_iff (w : Word) : (∃ i, decodeWord w = some i ∧ encCanonical i = w) ↔
    w &&& (decode w).unreadBits = 0#32 ∧ (decode w).mnemonic ≠ .unknown := by
  rw [← and_not_eq_self_iff, Ne, ← decodeWord_eq_none]
  constructor
  · rintro ⟨i, hi, hw⟩
    exact ⟨(encCanonical_of_decodeWord hi).symm.trans hw, by simp [hi]⟩
  · rintro ⟨hw, hn⟩
    obtain ⟨i, hi⟩ := Option.ne_none_iff_exists'.1 hn
    exact ⟨i, hi, (encCanonical_of_decodeWord hi).trans hw⟩

/-- Settles O58: each encoding function by its formula and by what the decoder makes of its words, and the other
direction from what `enc` after the decoder clears. -/
theorem encodingFunctionsInvertDecoder : Obligations.EncodingFunctionsInvertDecoder := by
  refine ⟨fun funct rs rt rd hf => ⟨encR_eq_shift_or funct rs rt rd, ?_⟩,
    fun opcode rs rt imm ho => ⟨encI_eq_shift_or opcode rs rt imm, ?_⟩,
    fun target => ⟨encJ_eq_shift_or target, decode_encJ target⟩, decode_syscallWord, by decide,
    fun i => by cases i <;> rfl, encCanonical_decodeWord_eq_self_iff⟩
  · exact decode_encR (ne_of_mem_of_not_mem hf (by decide)) rs rt rd 0#5
  · exact decode_encI (ne_of_mem_of_not_mem ho (by decide)) (ne_of_mem_of_not_mem ho (by decide)) rs rt imm

end Sys2Proof

/-! PROOFS. The field identities of every word (R125 of 40_decoder.md). -/

namespace Sys2Proof

/-- Bit fields side by side are the digits of a number: the upper one counts the lower one's range. -/
theorem toNat_append_eq_mul_add {m n : Nat} (x : BitVec m) (y : BitVec n) :
    (x ++ y).toNat = x.toNat * 2 ^ n + y.toNat := by
  rw [BitVec.toNat_append, ← Nat.shiftLeft_add_eq_or_of_lt y.isLt, Nat.shiftLeft_eq]

/-- The layout of R90 covers the immediate. -/
theorem immOf_fields_append (w : Word) : rdOf w ++ w.extractLsb' 6 5 ++ functOf w = immOf w := by
  unfold rdOf functOf immOf
  rw [BitVec.extractLsb'_append_extractLsb'_eq_extractLsb' (show 11 = 6 + 5 from rfl),
    BitVec.extractLsb'_append_extractLsb'_eq_extractLsb' (show 6 = 0 + 6 from rfl)]

/-- The layout of R91 covers the target. -/
theorem targetOf_fields_append (w : Word) : rsOf w ++ rtOf w ++ immOf w = targetOf w := by
  unfold rsOf rtOf immOf targetOf
  rw [BitVec.extractLsb'_append_extractLsb'_eq_extractLsb' (show 21 = 16 + 5 from rfl),
    BitVec.extractLsb'_append_extractLsb'_eq_extractLsb' (show 16 = 0 + 16 from rfl)]

/-- Settles O7: each identity is one layout's fields side by side, read as a number. -/
theorem fieldIdentitiesHold : Obligations.FieldIdentitiesHold := by
  intro w
  have hword := congrArg BitVec.toNat (fields_R_append w)
  have himm := congrArg BitVec.toNat (immOf_fields_append w)
  have htarget := congrArg BitVec.toNat (targetOf_fields_append w)
  simp only [toNat_append_eq_mul_add] at hword himm htarget
  omega

end Sys2Proof

/-! PROOFS. The engine's loop (41_engine.md): what a step does while the loop condition holds, and how a run ends. -/

namespace Sys2Proof.Machine

/-! ### One step (R141) -/

/-- A word that holds an instruction is executed by its handler (R144). -/
theorem execWord_of_instr {w : Word} {i : Instr} (h : decodeWord w = some i) (s : State) :
    execWord w s = exec i s := by
  rw [execWord, h]

/-- A word that holds no instruction is reported (R219). -/
theorem execWord_of_unknown {w : Word} (h : decodeWord w = none) (s : State) :
    execWord w s = .next (reportUnknown w s) := by
  rw [execWord, h]

/-- Where the loop condition fails, the step reports the end of the run. -/
theorem step_of_not_running {s : State} (h : ¬ s.running) : ∃ o, step s = .fault (.runEnded o) := by
  cases hw : s.nextWord with
  | error o => exact ⟨o, step_eq_runEnded.2 hw⟩
  | ok w =>
    obtain ⟨hr, -⟩ := State.nextWord_eq_ok.1 hw
    exact absurd hr h

/-- Settles O35: `s.running` is the loop condition, and `s.advance` the state with `pc + 1`. -/
theorem stepRunsDecodedInstruction : Obligations.StepRunsDecodedInstruction := by
  intro s
  refine ⟨fun w i h0 hN hh hf hw hi => ?_, fun w h0 hN hh hf hw hn => ?_, fun hr => ?_⟩
  · exact (step_of_running ⟨⟨h0, hN⟩, hh, hf⟩ hw).trans (execWord_of_instr hi s.advance)
  · exact (step_of_running ⟨⟨h0, hN⟩, hh, hf⟩ hw).trans (execWord_of_unknown hn s.advance)
  · exact step_of_not_running fun ⟨⟨h0, hN⟩, hh, hf⟩ => hr ⟨h0, hN, hh, hf⟩

/-! ### The end of a run (R146, R148) -/

/-- Settles O36: the three cases are those in which there is no next word (`State.nextWord_eq_error`). -/
theorem endedRunReportsOutcome : Obligations.EndedRunReportsOutcome := by
  intro s
  refine ⟨fun hh => ?_, fun c hh hc => ?_, fun hh hf hpc => ?_⟩ <;>
    rw [step_eq_runEnded, State.nextWord_eq_error]
  · exact .inl ⟨hh, rfl⟩
  · exact .inr (.inl ⟨hh, c, hc, rfl⟩)
  · have hout : ¬ s.pcLoaded := fun ⟨h0, hN⟩ => by omega
    exact .inr (.inr ⟨hh, hf, hout, rfl⟩)

/-- A run that has fuel left ends in the state whose step reports the end. -/
theorem run_of_ended {s : State} {o : RunOutcome} (h : step s = .fault (.runEnded o)) (fuel : Nat) :
    run (fuel + 1) s = .ended o s := by
  rw [run, h]

/-- Settles O38: after such a launch `pc = 0` is the length of the program, the last case of R146. -/
theorem emptyProgramEndsAtOnce : Obligations.EmptyProgramEndsAtOnce := by
  intro l s hl hs
  obtain ⟨-, -, -, -, -, hpc, himem, -, -, hhalted, hfault, -⟩ := State.launch_eq_next hs
  obtain ⟨-, -, hpcOut⟩ := endedRunReportsOutcome s
  have hend : step s = .fault (.runEnded .unsafeTermination) :=
    hpcOut hhalted hfault (.inr (by simp [hpc, himem, hl]))
  exact ⟨hend, run_of_ended hend⟩

end Sys2Proof.Machine

/-! PROOFS. Arithmetic and logic (42_arith_logic.md): the words each row's mask and match select, the value each
instruction writes, and the frame of a register write. -/

namespace Sys2Proof

/-! ### The rows' masks and matches (R95 to R97) -/

/-- A row of format `R` selects the instruction its function code names (R96). -/
theorem rowSelects_R {c : Word} {mk : Reg → Reg → Reg → Instr} (ho : opcodeOf c = 0#6) (hf : functOf c ≠ 0x0C#6)
    (hmk : ∀ rs rt rd, instrR (functTable (functOf c)) rs rt rd = some (mk rs rt rd)) :
    Machine.RowSelects 0xFC00003F#32 c fun w => mk (rsOf w) (rtOf w) (rdOf w) :=
  fun _ hw => (decodeWord_of_match_R hw ho rfl hf).trans (hmk _ _ _)

/-- A row of format `I` selects the instruction its opcode names (R97). -/
theorem rowSelects_I {c : Word} {mk : Reg → Reg → Imm16 → Instr} (h0 : opcodeOf c ≠ 0#6) (h2 : opcodeOf c ≠ 2#6)
    (hmk : ∀ rs rt imm, instrI (opcodeTable (opcodeOf c)) rs rt imm = some (mk rs rt imm)) :
    Machine.RowSelects 0xFC000000#32 c fun w => mk (rsOf w) (rtOf w) (immOf w) :=
  fun _ hw => (decodeWord_of_match_I hw rfl h0 h2).trans (hmk _ _ _)

end Sys2Proof

namespace Sys2Proof.Machine

/-! ### The values written, in the terms of R160 to R170 -/

/-- The difference in Z, reduced modulo 2^32 (R166). -/
theorem sub_eq_ofInt (a b : Word) : a - b = BitVec.ofInt 32 (a.toNat - b.toNat) := by
  rw [Int.sub_eq_add_neg, BitVec.ofInt_add, BitVec.ofInt_neg, BitVec.ofInt_natCast, BitVec.ofInt_natCast,
    BitVec.ofNat_toNat, BitVec.ofNat_toNat, BitVec.setWidth_eq, BitVec.setWidth_eq, BitVec.sub_eq_add_neg]

/-- The sum with the unsigned value of the immediate, reduced modulo 2^32 (R161). -/
theorem add_zext32_eq_ofNat (a : Word) (imm : Imm16) : a + zext32 imm = BitVec.ofNat 32 (a.toNat + imm.toNat) := by
  rw [BitVec.ofNat_add, BitVec.ofNat_toNat, BitVec.ofNat_toNat, BitVec.setWidth_eq, zext32]

/-- `slt` compares the values `toS32` gives (R167). -/
theorem boolWord_lessSigned (a b : Word) : boolWord (lessSigned a b) = if toS32 a < toS32 b then 1#32 else 0#32 := by
  simp only [boolWord, lessSigned, toS32_eq_toInt, decide_eq_true_eq]

/-- The low half of the extended immediate is the immediate (R13). -/
theorem getLsbD_zext32_low (imm : Imm16) {k : Nat} (hk : k < 16) : (zext32 imm).getLsbD k = imm.getLsbD k := by
  have h32 : k < 32 := by omega
  rw [zext32, BitVec.getLsbD_setWidth, decide_eq_true h32, Bool.true_and]

/-- The high half of the extended immediate is 0 (R13). -/
theorem getLsbD_zext32_high (imm : Imm16) {k : Nat} (hk : 16 ≤ k) : (zext32 imm).getLsbD k = false := by
  rw [zext32, BitVec.getLsbD_setWidth, BitVec.getLsbD_of_ge imm k hk, Bool.and_false]

/-- The operand of `lui` is the immediate times 2^16, which never wraps (R170). -/
theorem upperImmediate_eq_ofNat (imm : Imm16) : upperImmediate imm = BitVec.ofNat 32 (imm.toNat * 2 ^ 16) := by
  apply BitVec.eq_of_toNat_eq
  have hvalue : (upperImmediate imm).toNat = imm.toNat * 2 ^ 16 + 0 := toNat_append_eq_mul_add imm 0x0000#16
  have hlt := imm.isLt
  rw [hvalue, BitVec.toNat_ofNat]
  omega

/-! ### Format `R` -/

/-- Settles O11: the machine word's sum is the sum of the values modulo 2^32. -/
theorem addWritesSum : Obligations.AddWritesSum := by
  refine ⟨rowSelects_R (mk := .add) (by decide) (by decide) fun _ _ _ => rfl, fun s rs rt rd => ?_⟩
  rw [← BitVec.add_def]
  exact writesRegister_writeReg s rd _

/-- Settles O12: the machine word's difference is the difference in Z modulo 2^32. -/
theorem subWritesDifference : Obligations.SubWritesDifference := by
  refine ⟨rowSelects_R (mk := .sub) (by decide) (by decide) fun _ _ _ => rfl, fun s rs rt rd => ?_⟩
  rw [← sub_eq_ofInt]
  exact writesRegister_writeReg s rd _

/-- Settles O13: the word written is the AND of the two words read. -/
theorem andWritesBitwiseAnd : Obligations.AndWritesBitwiseAnd :=
  ⟨rowSelects_R (mk := .and) (by decide) (by decide) fun _ _ _ => rfl,
    fun s _ _ rd => ⟨_, writesRegister_writeReg s rd _, fun _ _ => BitVec.getLsbD_and⟩⟩

/-- Settles O14: the word written is the OR of the two words read. -/
theorem orWritesBitwiseOr : Obligations.OrWritesBitwiseOr :=
  ⟨rowSelects_R (mk := .or) (by decide) (by decide) fun _ _ _ => rfl,
    fun s _ _ rd => ⟨_, writesRegister_writeReg s rd _, fun _ _ => BitVec.getLsbD_or⟩⟩

/-- Settles O15: the word written is the Boolean of the signed comparison. -/
theorem sltWritesSignedComparison : Obligations.SltWritesSignedComparison := by
  refine ⟨rowSelects_R (mk := .slt) (by decide) (by decide) fun _ _ _ => rfl, fun s rs rt rd => ?_⟩
  rw [← boolWord_lessSigned]
  exact writesRegister_writeReg s rd _

/-! ### Format `I` -/

/-- Settles O16: the immediate is added as its unsigned value. -/
theorem addiuAddsUnsignedImmediate : Obligations.AddiuAddsUnsignedImmediate := by
  refine ⟨rowSelects_I (mk := .addiu) (by decide) (by decide) fun _ _ _ => rfl, fun s rs rt imm => ?_⟩
  rw [← add_zext32_eq_ofNat]
  exact writesRegister_writeReg s rt _

/-- Settles O17: the high half of the extended immediate is 0, and so is its AND with anything. -/
theorem andiClearsHighHalf : Obligations.AndiClearsHighHalf := by
  refine ⟨rowSelects_I (mk := .andi) (by decide) (by decide) fun _ _ _ => rfl, fun s rs rt imm =>
    ⟨s.readReg rs &&& zext32 imm, writesRegister_writeReg s rt _, fun k hk => ?_, fun k hk _ => ?_⟩⟩
  · rw [BitVec.getLsbD_and, getLsbD_zext32_low imm hk]
  · rw [BitVec.getLsbD_and, getLsbD_zext32_high imm hk, Bool.and_false]

/-- Settles O18: the high half of the extended immediate is 0, and OR with it leaves the bits of `x[rs]`. -/
theorem oriKeepsHighHalf : Obligations.OriKeepsHighHalf := by
  refine ⟨rowSelects_I (mk := .ori) (by decide) (by decide) fun _ _ _ => rfl, fun s rs rt imm =>
    ⟨s.readReg rs ||| zext32 imm, writesRegister_writeReg s rt _, fun k hk => ?_, fun k hk _ => ?_⟩⟩
  · rw [BitVec.getLsbD_or, getLsbD_zext32_low imm hk]
  · rw [BitVec.getLsbD_or, getLsbD_zext32_high imm hk, Bool.or_false]

/-- Settles O19: the word written is a function of the immediate alone. -/
theorem luiWritesUpperImmediate : Obligations.LuiWritesUpperImmediate := by
  refine ⟨rowSelects_I (mk := .lui) (by decide) (by decide) fun _ _ _ => rfl, fun s _ rt imm => ?_⟩
  rw [← upperImmediate_eq_ofNat]
  exact writesRegister_writeReg s rt _

end Sys2Proof.Machine

/-! PROOFS. Control transfer (43_control_transfer.md): the words of `j`, the `pc` a branch and a jump leave, and the
frame of a write of `pc`. -/

namespace Sys2Proof

/-- The row of format `J` selects `j` (R95): opcode 2 is the whole test. -/
theorem rowSelects_J {c : Word} (ho : opcodeOf c = 0x02#6) :
    Machine.RowSelects 0xFC000000#32 c fun w => .j (targetOf w) := fun _ hw => by
  rw [decodeWord, decode_J ((opcode_of_match hw).trans ho)]
  rfl

end Sys2Proof

namespace Sys2Proof.Machine

/-! ### Branches (R190, R191) -/

/-- The branches' comparison is equality of the two words (R190). -/
theorem sameWord_iff_eq (a b : Word) : sameWord a b = true ↔ a = b := beq_iff_eq

/-- A branch writes its target to `pc` where its condition `taken` holds, and keeps the default advance elsewhere. -/
theorem setsPc_branch (s : State) (taken : Prop) [Decidable taken] (imm : Imm16) :
    SetsPc s (.next (if taken then s.setPc (branchTarget s.pc imm) else s))
      (if taken then s.pc + signed16 imm else s.pc) := by
  split
  · rw [signed16_eq_sext16]
    exact setsPc_setPc s _
  · exact setsPc_same s

/-- Settles O20: a branch whose condition is that the two words read are equal. -/
theorem beqBranchesWhenEqual : Obligations.BeqBranchesWhenEqual := by
  refine ⟨rowSelects_I (mk := .beq) (by decide) (by decide) fun _ _ _ => rfl, fun s rs rt imm => ?_⟩
  simp only [exec, execBeq, sameWord_iff_eq]
  exact setsPc_branch s (s.readReg rs = s.readReg rt) imm

/-- Settles O21: the model's `bne` names the words that do not branch first, so its condition is turned round. -/
theorem bneBranchesWhenDifferent : Obligations.BneBranchesWhenDifferent := by
  refine ⟨rowSelects_I (mk := .bne) (by decide) (by decide) fun _ _ _ => rfl, fun s rs rt imm => ?_⟩
  have hexec : exec (.bne rs rt imm) s =
      .next (if s.readReg rs ≠ s.readReg rt then s.setPc (branchTarget s.pc imm) else s) := by
    simp only [exec, execBne, sameWord_iff_eq, ne_eq, ite_not]
  rw [hexec]
  exact setsPc_branch s (s.readReg rs ≠ s.readReg rt) imm

/-! ### The jump (R193) -/

/-- `A` is the byte address of the index, modulo 2^32. -/
theorem toNat_byteAddress (textBase : Nat) (pc : Int) :
    ((byteAddress textBase pc).toNat : Int) = (textBase + 4 * pc) % 2 ^ 32 := by
  rw [byteAddress, BitVec.toNat_ofInt]
  omega

/-- `T` in Z: the top four bits of `A` at their own weight, and the target counting words of four bytes. -/
theorem toNat_topBits_append_target (a : Word) (target : Target26) :
    (a.extractLsb' 28 4 ++ target ++ 0#2).toNat = a.toNat / 2 ^ 28 * 2 ^ 28 + 4 * target.toNat := by
  have htop : (a.extractLsb' 28 4).toNat = a.toNat / 2 ^ 28 := by
    have hlt := a.isLt
    rw [BitVec.extractLsb'_toNat, Nat.shiftRight_eq_div_pow]
    omega
  rw [toNat_append_eq_mul_add, toNat_append_eq_mul_add, htop, BitVec.toNat_ofNat]
  omega

/-- The division of R193 is exact under R10 (a): the new index has the byte address `T`. -/
theorem textBase_add_four_mul_jumpTarget {textBase : Nat} (h : 4 ∣ textBase) (pc : Int) (target : Target26) :
    textBase + 4 * jumpTarget textBase pc target =
      ((textBase + 4 * pc) % 2 ^ 32) / 2 ^ 28 * 2 ^ 28 + 4 * target.toNat := by
  rw [jumpTarget, toNat_topBits_append_target, ← toNat_byteAddress]
  omega

/-- Settles O22: the index is `jumpTarget`, whose byte address is `T`. -/
theorem jumpGoesToTarget : Obligations.JumpGoesToTarget :=
  ⟨rowSelects_J (by decide), fun s target haligned =>
    ⟨jumpTarget s.params.textBase s.pc target, setsPc_setPc s _,
      textBase_add_four_mul_jumpTarget haligned s.pc target⟩⟩

end Sys2Proof.Machine

/-! PROOFS. Load and store (44_load_store.md): the words of `lw` and `sw`, the cell index an effective address names,
and the stack after a store. -/

namespace Sys2Proof.Machine

/-! ### Addresses (R51, R200) -/

/-- The cell index of an address, with `STACK_TOP` as its literal (R24, R51). -/
theorem stackIndex_eq (a : Int) : stackIndex a = 0x7FFFEFFC - a := by
  rw [stackIndex, stackTop_toNat]

/-- Different addresses name different cells: an index is not scaled (R51). -/
theorem stackIndex_injective : Function.Injective stackIndex := fun a b h => by
  rw [stackIndex_eq, stackIndex_eq] at h
  omega

/-- A write to the cell of one address is not seen at another, the neighbouring ones included (R53). -/
theorem State.memRead_write_other (s : State) {a b : Int} (v : Word) (ha : 0 ≤ stackIndex a) (hb : b ≠ a) :
    State.memRead { s with stack := s.stack.write (stackIndex a).toNat v } b = s.memRead b := by
  have hne : stackIndex b ≠ stackIndex a := stackIndex_injective.ne hb
  rcases s.memRead_cases b with ⟨h₀, h₁, hread⟩ | ⟨hout, hread⟩
  · have hcell : (stackIndex b).toNat ≠ (stackIndex a).toNat := by omega
    rw [hread, State.memRead, if_pos ⟨h₀, h₁⟩, Memory.read_write_other _ v hcell]
  · rw [hread, State.memRead, if_neg hout]

/-! ### The load (R201) -/

/-- All that `lw` does: the cell of an index in range goes to `x[rt]`, and any other index is recorded as a fault. -/
theorem exec_lw_eq (s : State) (rs rt : Reg) (imm : Imm16) {k : Int}
    (hk : stackIndex (effectiveAddress (s.readReg rs) imm) = k) :
    exec (.lw rs rt imm) s =
      .next (if 0 ≤ k ∧ k < s.params.stackCap then s.writeReg rt (s.stack.read k.toNat) else s.raise ⟨.stack, k⟩) := by
  subst hk
  rcases s.memRead_cases (effectiveAddress (s.readReg rs) imm) with ⟨h₀, h₁, hread⟩ | ⟨hout, hread⟩
  · rw [exec, execLw, hread, if_pos ⟨h₀, h₁⟩]
  · rw [exec, execLw, hread, if_neg hout]

/-- Settles O24: `exec_lw_eq`, with the frame of a register write and of a raised fault. -/
theorem lwLoadsStackCell : Obligations.LwLoadsStackCell := by
  refine ⟨rowSelects_I (mk := .lw) (by decide) (by decide) fun _ _ _ => rfl, fun s rs rt imm k hk => ?_⟩
  rw [exec_lw_eq s rs rt imm ((stackIndex_eq _).trans hk.symm)]
  refine ⟨fun h₀ h₁ => ?_, fun hout => ?_⟩
  · rw [if_pos ⟨h₀, h₁⟩]
    exact writesRegister_writeReg s rt _
  · rw [if_neg (by omega)]
    exact recordsFault_raise s _

/-! ### The store (R202) -/

/-- All that `sw` does: `x[rt]` goes to the cell of an index in range, and any other index is recorded as a fault. -/
theorem exec_sw_eq (s : State) (rs rt : Reg) (imm : Imm16) {k : Int}
    (hk : stackIndex (effectiveAddress (s.readReg rs) imm) = k) :
    exec (.sw rs rt imm) s =
      .next (if 0 ≤ k ∧ k < s.params.stackCap then { s with stack := s.stack.write k.toNat (s.readReg rt) }
        else s.raise ⟨.stack, k⟩) := by
  subst hk
  rcases s.memWrite_cases (effectiveAddress (s.readReg rs) imm) (s.readReg rt) with ⟨h₀, h₁, hwrite⟩ | ⟨hout, hwrite⟩
  · rw [exec, execSw, hwrite, if_pos ⟨h₀, h₁⟩]
  · rw [exec, execSw, hwrite, if_neg hout]

/-- Settles O25: `exec_sw_eq`, with the laws of a segment's write for the cells and `memRead_write_other` for the
addresses. -/
theorem swStoresStackCell : Obligations.SwStoresStackCell := by
  refine ⟨rowSelects_I (mk := .sw) (by decide) (by decide) fun _ _ _ => rfl, fun s rs rt imm a ha hstack => ⟨ha, ?_⟩⟩
  rw [← stackIndex_eq, exec_sw_eq s rs rt imm (congrArg stackIndex ha.symm)]
  refine ⟨fun h₀ h₁ => ?_, fun hout => ?_⟩
  · rw [if_pos ⟨h₀, h₁⟩]
    exact ⟨_, rfl, Memory.read_write_same hstack _ _, fun _ hk => Memory.read_write_other _ _ hk,
      fun _ hb => s.memRead_write_other _ h₀ hb, fun _ => rfl, rfl, ⟨rfl, rfl, rfl, fun _ => rfl⟩, ⟨rfl, rfl, rfl, rfl⟩⟩
  · rw [if_neg (by omega)]
    exact recordsFault_raise s _

end Sys2Proof.Machine

/-! PROOFS. The services of `syscall` and the report of an unknown word (45_syscall.md): the service each code selects,
and the string the print-string service walks. -/

namespace Sys2Proof.Machine

/-! ### The dispatch on `x[2]` (R210) -/

theorem service_of_code_printInteger {s : State} (h : s.readReg codeReg = 1#32) :
    service s = .next (printInteger s) := by
  rw [service, if_pos h]

theorem service_of_code_printString {s : State} (h : s.readReg codeReg = 4#32) :
    service s = .next (printString s) := by
  simp [service, h]

theorem service_of_code_terminate {s : State} (h : s.readReg codeReg = 10#32) : service s = .next s.halt := by
  simp [service, h]

theorem service_of_code_other {s : State} (h : s.readReg codeReg ∉ [1#32, 4#32, 5#32, 10#32]) :
    service s = .next s := by
  simp only [List.mem_cons, List.not_mem_nil, or_false, not_or] at h
  obtain ⟨h1, h4, h5, h10⟩ := h
  rw [service, if_neg h1, if_neg h4, if_neg h5, if_neg h10]

/-! ### The services that walk no memory (R212, R216, R217) -/

/-- Settles O27: one event is emitted, and the model's signed value is `toS32`. -/
theorem printIntegerEmitsSignedValue : Obligations.PrintIntegerEmitsSignedValue := by
  intro s i hi hcode
  rw [exec_of_isSyscall hi, service_of_code_printInteger hcode, toS32_eq_toInt]
  exact emits_emitAll s _

/-- Settles O30: the next state is `s.halt`, and `halted` is the first case of R146. -/
theorem terminateHalts : Obligations.TerminateHalts := by
  intro s i hi hcode
  have hend : step s.halt = .fault (.runEnded .success) :=
    step_eq_runEnded.2 (State.nextWord_eq_error.2 (.inl ⟨s.halt_halted, rfl⟩))
  rw [exec_of_isSyscall hi, service_of_code_terminate hcode]
  exact ⟨_, rfl, rfl, fun _ => rfl, rfl, ⟨rfl, rfl, rfl, fun _ => rfl⟩, ⟨rfl, fun _ => rfl⟩, rfl, rfl, rfl, hend⟩

/-- Settles O31: a word that is one of the four codes has one of the four values. -/
theorem otherCodesDoNothing : Obligations.OtherCodesDoNothing := by
  intro s i hi hcode
  have hother : s.readReg codeReg ∉ [1#32, 4#32, 5#32, 10#32] := fun hmem =>
    hcode (List.mem_map_of_mem (f := BitVec.toNat) hmem)
  exact (exec_of_isSyscall hi s).trans (service_of_code_other hother)

/-! ### The string at a cursor (R213) -/

/-- Cell `k` lies inside the data segment and holds a character, not the zero that ends a string. -/
def State.HasChar (s : State) (k : Int) : Prop :=
  (0 ≤ k ∧ k < s.params.dataCap) ∧ s.data.read k.toNat ≠ 0#32

/-- The walk of the print-string service from cursor `k`, with the bound `printStringFrom` gives it. -/
def stringWalk (s : State) (k : Int) : List Word × Option AddressFault :=
  scanString s (s.params.dataCap - k).toNat k

theorem State.dataRead_of_inside {s : State} {k : Int} (hin : 0 ≤ k ∧ k < s.params.dataCap) :
    s.dataRead k = .ok (s.data.read k.toNat) := if_pos hin

theorem State.dataRead_of_outside {s : State} {k : Int} (hout : ¬(0 ≤ k ∧ k < s.params.dataCap)) :
    s.dataRead k = .error ⟨.data, k⟩ := if_neg hout

theorem stringWalk_of_hasChar {s : State} {k : Int} (h : s.HasChar k) :
    stringWalk s k = (s.data.read k.toNat :: (stringWalk s (k + 1)).1, (stringWalk s (k + 1)).2) := by
  obtain ⟨hin, hne⟩ := h
  simp only [stringWalk, scanString_unroll s k, State.dataRead_of_inside hin, if_neg hne]

theorem stringWalk_of_zero {s : State} {k : Int} (hin : 0 ≤ k ∧ k < s.params.dataCap)
    (hzero : s.data.read k.toNat = 0#32) : stringWalk s k = ([], none) := by
  simp only [stringWalk, scanString_unroll s k, State.dataRead_of_inside hin, if_pos hzero]

theorem stringWalk_of_outside {s : State} {k : Int} (hout : ¬(0 ≤ k ∧ k < s.params.dataCap)) :
    stringWalk s k = ([], some ⟨.data, k⟩) := by
  simp only [stringWalk, scanString_unroll s k, State.dataRead_of_outside hout]

/-- The walk passes a run of characters in order and goes on from the cell after it. -/
theorem stringWalk_of_run {s : State} {k : Int} {n : Nat} (h : ∀ j : Nat, j < n → s.HasChar (k + j)) :
    stringWalk s k =
      ((List.range n).map (fun j : Nat => s.data.read (k + j).toNat) ++ (stringWalk s (k + n)).1,
        (stringWalk s (k + n)).2) := by
  induction n with
  | zero => simp
  | succ n ih =>
    have hnext : k + n + 1 = k + (n + 1 : Nat) := by omega
    rw [ih fun j hj => h j (by omega), stringWalk_of_hasChar (h n (by omega)), hnext]
    simp [List.range_succ]

/-- Every cursor has a first cell without a character: beyond the segment's end there is none. -/
theorem exists_run (s : State) (k : Int) :
    ∃ n : Nat, (∀ j : Nat, j < n → s.HasChar (k + j)) ∧ ¬ s.HasChar (k + n) := by
  classical
  have hbeyond : ∃ n : Nat, ¬ s.HasChar (k + n) := by
    refine ⟨(s.params.dataCap - k).toNat, fun ⟨⟨_, hlt⟩, _⟩ => ?_⟩
    omega
  exact ⟨Nat.find hbeyond, fun j hj => not_not.1 (Nat.find_min hbeyond hj), Nat.find_spec hbeyond⟩

/-- The print-string service at a run of characters whose walk then ends with `f`: it emits the run, and records `f`
where it is a fault. -/
theorem emits_printStringFrom_of_run {s : State} {k : Int} {n : Nat} {f : Option AddressFault}
    (h : ∀ j : Nat, j < n → s.HasChar (k + j)) (hend : stringWalk s (k + n) = ([], f)) :
    Emits s (.next (printStringFrom s k))
      ((List.range n).map fun j : Nat => .printChar (s.data.read (k + j).toNat)) (f.or s.fault) := by
  have hwalk : scanString s (s.params.dataCap - k).toNat k =
      ((List.range n).map fun j : Nat => s.data.read (k + j).toNat, f) := by
    rw [← stringWalk, stringWalk_of_run h, hend, List.append_nil]
  rw [printStringFrom_eq, hwalk, List.map_map]
  exact ⟨_, rfl, rfl, rfl, fun _ => rfl, rfl, ⟨rfl, rfl, rfl, fun _ => rfl⟩, ⟨rfl, fun _ => rfl⟩, rfl, rfl⟩

/-- Settles O28: after a run of characters the walk ends at a zero cell or faults outside the segment, and the first
cell without a character is one of the two. -/
theorem printStringPrintsUpToZero : Obligations.PrintStringPrintsUpToZero := by
  intro s i k hi hcode hk inside chars events
  have hexec : exec i s = .next (printStringFrom s k) := by
    rw [exec_of_isSyscall hi, service_of_code_printString hcode, hk]
    rfl
  rw [hexec]
  refine ⟨fun n hrun hin hzero => ?_, fun n hrun hout => ?_, ?_⟩
  · exact emits_printStringFrom_of_run hrun (stringWalk_of_zero hin hzero)
  · exact emits_printStringFrom_of_run hrun (stringWalk_of_outside hout)
  · obtain ⟨n, hrun, hstop⟩ := exists_run s k
    exact ⟨n, hrun, (not_and_or.1 hstop).imp_right not_not.1⟩

/-! ### The report of an unknown word (R145, R219) -/

/-- Settles O34: a word of mnemonic `unknown` holds no instruction, so the step reports it after the default advance. -/
theorem unknownWordIsReportedAndSkipped : Obligations.UnknownWordIsReportedAndSkipped := by
  intro s w hrunning hw hunknown
  have hstep : step s = .next (reportUnknown w s.advance) :=
    (step_of_running hrunning hw).trans (execWord_of_unknown (decodeWord_eq_none.2 hunknown) s.advance)
  exact ⟨_, hstep, rfl, rfl, fun _ => rfl, ⟨rfl, rfl, rfl, fun _ => rfl⟩, ⟨rfl, fun _ => rfl⟩, rfl, rfl, rfl⟩

end Sys2Proof.Machine

/-! PROOFS. The addressing fault (60_exceptions.md): where a fault comes from, what the faulting step leaves unchanged,
and the end of the run. -/

namespace Sys2Proof.Machine

/-! ### The index of a fault (R52 to R54) -/

/-- The index a fault names lies outside its segment exactly when it fails the range check of the access. -/
theorem AddressFault.wf_iff {p : Params} {f : AddressFault} :
    f.wf p ↔ ¬(0 ≤ f.index ∧ f.index < f.region.cap p) := by
  rw [AddressFault.wf]
  omega

/-! ### The origin of a fault (R234) -/

/-- The print-string service from a cursor whose walk faults: the characters are emitted, then the fault is raised. -/
theorem printStringFrom_of_fault {s : State} {k : Int} {f : AddressFault} (h : (stringWalk s k).2 = some f) :
    printStringFrom s k = (s.emitAll ((stringWalk s k).1.map .printChar)).raise f := by
  rw [stringWalk] at h
  rw [printStringFrom_eq, h]
  rfl

/-- A fault of the string walk names an index outside the data segment (R54). -/
theorem stringWalk_fault_wf {s : State} {k : Int} {f : AddressFault} (h : (stringWalk s k).2 = some f) :
    f.region = .data ∧ f.wf s.params := by
  obtain ⟨hregion, hout⟩ := scanString_fault (Int.self_le_toNat _) h
  rw [AddressFault.wf_iff, hregion]
  exact ⟨rfl, hout⟩

/-- A service that leaves a fault where there was none is print-string, and has only emitted characters before it. -/
theorem service_raises {s t : State} {f : AddressFault} (h : service s = .next t) (hs : s.fault = none)
    (hf : t.fault = some f) :
    s.readReg codeReg = 4#32 ∧ f.region = .data ∧ f.wf s.params ∧
      ∃ cs : List Word, t = (s.emitAll (cs.map .printChar)).raise f := by
  have hkept : t.fault ≠ s.fault := by simp [hs, hf]
  rcases service_cases s with ⟨-, e⟩ | ⟨hcode, e⟩ | ⟨-, -, e⟩ | ⟨-, _, _, -, e⟩ | ⟨-, e⟩ | ⟨-, e⟩ <;>
    rw [e] at h <;> cases h
  case inr.inl =>
    have hwalk : (stringWalk s (dataIndex s.params.dataBase (s.readReg argReg))).2 = some f := by
      rw [printString, printStringFrom_eq, hs, Option.or_none] at hf
      exact hf
    obtain ⟨hregion, hwf⟩ := stringWalk_fault_wf hwalk
    exact ⟨hcode, hregion, hwf, _, printStringFrom_of_fault hwalk⟩
  all_goals exact absurd rfl hkept

/-- An instruction that leaves a fault where there was none has emitted `es` and raised the fault, and done nothing
else: `lw` or `sw` on the stack with no event, or the print-string service on the data segment with characters only. -/
theorem exec_raises {i : Instr} {s t : State} {f : AddressFault} (h : exec i s = .next t) (hs : s.fault = none)
    (hf : t.fault = some f) :
    ∃ es, t = (s.emitAll es).raise f ∧ f.wf s.params ∧
      ((f.region = .stack ∧ es = [] ∧ ((∃ rs rt imm, i = .lw rs rt imm) ∨ ∃ rs rt imm, i = .sw rs rt imm)) ∨
       (f.region = .data ∧ IsSyscall i ∧ s.readReg codeReg = 4#32 ∧ ∃ cs : List Word, es = cs.map .printChar)) := by
  have hkept : t.fault ≠ s.fault := by simp [hs, hf]
  rcases exec_cases h with ⟨_, _, rfl, -⟩ | ⟨_, rfl, -⟩ | ⟨rfl, -⟩ | ⟨a, rfl, hout, hi⟩ |
    ⟨_, _, _, _, -, -, -, -, rfl⟩ | ⟨hi, hservice⟩
  case inr.inr.inr.inl =>
    obtain rfl : ⟨.stack, stackIndex a⟩ = f := Option.some.inj hf
    refine ⟨[], by simp [State.emitAll], AddressFault.wf_iff.2 hout, .inl ⟨rfl, rfl, hi.imp ?_ ?_⟩⟩ <;>
      exact fun ⟨rs, rt, imm, hi, _⟩ => ⟨rs, rt, imm, hi⟩
  case inr.inr.inr.inr.inr =>
    obtain ⟨hcode, hregion, hwf, cs, ht⟩ := service_raises hservice hs hf
    exact ⟨_, ht, hwf, .inr ⟨hregion, hi, hcode, cs, rfl⟩⟩
  all_goals exact absurd rfl hkept

/-- A step that leaves a fault executes an instruction in a state without one: an unknown word raises none, and a state
with a fault takes no step (R141). -/
theorem step_raises {s t : State} {f : AddressFault} (h : step s = .next t) (hf : t.fault = some f) :
    ∃ w i, s.imem[s.pc.toNat]? = some w ∧ decodeWord w = some i ∧ s.halted = false ∧ s.fault = none ∧
      exec i s.advance = .next t := by
  obtain ⟨w, ⟨-, hhalted, hnone⟩, hw, hexec⟩ := step_eq_next h
  rcases execWord_eq_next hexec with ⟨i, hi, hx⟩ | ⟨-, rfl⟩
  · exact ⟨w, i, hw, hi, hhalted, hnone, hx⟩
  · exact nomatch hnone.symm.trans hf

/-- Settles O51: the faulting instruction leaves `(s.advance.emitAll es).raise f`, whose fields are the frame, and a
recorded fault is the second case of R146. -/
theorem faultIsPrecise : Obligations.FaultIsPrecise := by
  intro s t f hstep hf
  obtain ⟨w, i, hw, hi, hhalted, hnone, hexec⟩ := step_raises hstep hf
  obtain ⟨es, rfl, hwf, horigin⟩ := exec_raises hexec hnone hf
  obtain ⟨-, hfaultEnds, -⟩ := endedRunReportsOutcome ((s.advance.emitAll es).raise f)
  refine ⟨⟨w, i, hw, hi, horigin.imp ?_ ?_⟩, hwf, rfl, fun _ => rfl, ⟨rfl, rfl, rfl, fun _ => rfl⟩,
    ⟨rfl, fun _ => rfl⟩, rfl, rfl, hfaultEnds f hhalted rfl⟩
  · rintro ⟨hregion, rfl, hlwsw⟩
    exact ⟨hregion, List.append_nil _, hlwsw⟩
  · rintro ⟨hregion, hsyscall, hcode, cs, rfl⟩
    exact ⟨hregion, hsyscall, hcode, cs, rfl⟩

end Sys2Proof.Machine

/-! PROOFS. The decoder and the lossless encoder (30_encoding.md sections 3 to 5, 40_decoder.md section 2): well-formed
values, the round trip in both directions, and the bits that do not affect execution. -/

namespace Sys2Proof

/-! ### The decoder's value (R95, R122) -/

/-- Settles O9: the mnemonic of each format comes from that format's table. -/
theorem decodedValuesAreWellFormed : Obligations.DecodedValuesAreWellFormed := by
  intro w
  rcases decode_cases w with ⟨-, hd⟩ | ⟨-, -, hd⟩ | ⟨-, hd⟩ | ⟨h0, h2, hd⟩ <;> rw [hd]
  · rfl
  · exact functTable_inFormatR (functOf w)
  · rfl
  · simp [Instruction.wellFormed, h0, h2, opcodeTable_inFormatI _ h0 h2]

theorem mnemonic_of_instrR {m : Mnemonic} {rs rt rd : Reg} {i : Instr} (h : instrR m rs rt rd = some i) :
    i.mnemonic = m := by
  cases m <;> cases h <;> rfl

theorem mnemonic_of_instrI {m : Mnemonic} {rs rt : Reg} {imm : Imm16} {i : Instr}
    (h : instrI m rs rt imm = some i) : i.mnemonic = m := by
  cases m <;> cases h <;> rfl

/-- The row a decoder value stands for has the value's mnemonic. -/
theorem mnemonic_of_ofInstruction {d : Instruction} {i : Instr} (h : Instr.ofInstruction d = some i) :
    i.mnemonic = d.mnemonic := by
  cases d with
  | r => exact mnemonic_of_instrR h
  | i => exact mnemonic_of_instrI h
  | j _ _ m | syscall _ _ m =>
    obtain ⟨rfl, hi⟩ := Option.ite_none_right_eq_some.1 h
    cases hi
    rfl

/-- Settles O3. -/
theorem noInstructionMeansUnknown : Obligations.NoInstructionMeansUnknown :=
  fun _ => ⟨decodeWord_eq_none, fun _ => mnemonic_of_ofInstruction⟩

/-! ### The two rows of `syscall` (R94, R100) -/

/-- An opcode-0 word of function code `0x0C` beside the literal is the format-`R` form of `syscall` (R100). -/
theorem decodeWord_syscallR {w : Word} (hw : w ≠ syscallWord) (ho : opcodeOf w = 0x00#6) (hf : functOf w = 0x0C#6) :
    decodeWord w = some (.syscallR (rsOf w) (rtOf w) (rdOf w)) := by
  rw [decodeWord, decode_R hw ho, hf]
  rfl

/-- The literal word is `syscall` (R94). -/
theorem decodeWord_syscallWord : decodeWord syscallWord = some .syscall := by
  rw [decodeWord, decode_syscallWord]
  rfl

/-- Settles O32: the mask and match fix the two fields that `decodeWord_syscallR` asks for. -/
theorem syscallRowsSelect : Obligations.SyscallRowsSelect := by
  refine ⟨decodeWord_syscallWord, fun w hmatch hw => ?_⟩
  obtain ⟨ho, hf⟩ := fields_of_match_R hmatch
  obtain ⟨hop, hfunct⟩ := fields_syscallWord
  exact decodeWord_syscallR hw (ho.trans hop) (hf.trans hfunct)

/-! ### Decoding an encoded instruction (R103) -/

/-- The bit the encoder sets where all fields are zero keeps its word apart from the literal (R103's caution). -/
theorem encode_syscallR_ne_syscallWord (rs rt rd : Reg) : encode (.syscallR rs rt rd) ≠ syscallWord := by
  intro h
  rw [encode] at h
  obtain rfl : rs = 0#5 := (rsOf_encR functSyscall rs rt rd _).symm.trans (congrArg rsOf h)
  obtain rfl : rt = 0#5 := (rtOf_encR functSyscall 0#5 rt rd _).symm.trans (congrArg rtOf h)
  obtain rfl : rd = 0#5 := (rdOf_encR functSyscall 0#5 0#5 rd _).symm.trans (congrArg rdOf h)
  exact absurd h (by decide)

theorem decodeWord_encode_syscallR (rs rt rd : Reg) :
    decodeWord (encode (.syscallR rs rt rd)) = some (.syscallR rs rt rd) := by
  rw [decodeWord_syscallR (encode_syscallR_ne_syscallWord rs rt rd)] <;> simp [encode, functSyscall]

/-- A word of `enc_R` holds the row its function code names. -/
theorem decodeWord_encR {funct : BitVec 6} (hf : funct ≠ 0x0C#6) (rs rt rd : Reg) (unread : BitVec 5) :
    decodeWord (encR funct rs rt rd unread) = instrR (functTable funct) rs rt rd := by
  rw [decodeWord, decode_encR hf]
  rfl

/-- A word of `enc_I` holds the row its opcode names. -/
theorem decodeWord_encI {opcode : BitVec 6} (h0 : opcode ≠ 0x00#6) (h2 : opcode ≠ 0x02#6) (rs rt : Reg) (imm : Imm16) :
    decodeWord (encI opcode rs rt imm) = instrI (opcodeTable opcode) rs rt imm := by
  rw [decodeWord, decode_encI h0 h2]
  rfl

/-- A word of `enc_J` holds `j`. -/
theorem decodeWord_encJ (target : Target26) : decodeWord (encJ target) = some (.j target) := by
  rw [decodeWord, decode_encJ]
  rfl

/-- The decoder gives back the instruction that was encoded. -/
theorem decodeWord_encode (i : Instr) : decodeWord (encode i) = some i := by
  cases i with
  | syscall => exact decodeWord_syscallWord
  | syscallR rs rt rd => exact decodeWord_encode_syscallR rs rt rd
  | add rs rt rd | sub rs rt rd | and rs rt rd | or rs rt rd | slt rs rt rd =>
    exact decodeWord_encR (by decide) rs rt rd 0#5
  | j target => exact decodeWord_encJ target
  | beq rs rt imm | bne rs rt imm | addiu rs rt imm | andi rs rt imm | ori rs rt imm | lui rs rt imm | lw rs rt imm
  | sw rs rt imm => exact decodeWord_encI (by decide) (by decide) rs rt imm

/-- Settles O4: `decodeWord_encode`, and every decoder value is well formed. -/
theorem decodeOfEncodeIsIdentity : Obligations.DecodeOfEncodeIsIdentity :=
  fun i => ⟨decodeWord_encode i, decodedValuesAreWellFormed (encode i)⟩

/-! ### Encoding a decoded word (R103) -/

/-- Bits 10 to 6 of an `enc_R` word are the ones it was given. -/
theorem unreadBits_encR (funct : BitVec 6) (rs rt rd : Reg) (unread : BitVec 5) :
    (encR funct rs rt rd unread).extractLsb' 6 5 = unread := by
  refine BitVec.eq_of_getLsbD_eq fun k hk => ?_
  simp only [encR, BitVec.getLsbD_extractLsb', BitVec.getLsbD_append]
  grind

/-- `enc_R` of an opcode-0 word's fields gives the word back exactly when it writes the word's own bits 10 to 6. -/
theorem encR_fields_eq_self_iff {w : Word} (ho : opcodeOf w = 0x00#6) (unread : BitVec 5) :
    encR (functOf w) (rsOf w) (rtOf w) (rdOf w) unread = w ↔ (w >>> 6) &&& 0x1F#32 = unread.setWidth 32 := by
  have hself : encR (functOf w) (rsOf w) (rtOf w) (rdOf w) (w.extractLsb' 6 5) = w := by
    rw [encR, ← ho]
    exact fields_R_append w
  have hbits : (w.extractLsb' 6 5).setWidth 32 = (w >>> 6) &&& 0x1F#32 :=
    setWidth_extractLsb'_eq_shift_and_mask w 6 (by decide)
  rw [← hbits]
  refine ⟨fun h => ?_, fun h => ?_⟩
  · conv_lhs => rw [← h, unreadBits_encR]
  · obtain rfl : w.extractLsb' 6 5 = unread := by simpa using congrArg (BitVec.setWidth 5) h
    exact hself

/-- The bits 10 to 6 the encoder writes for a format-`R` `syscall`, as a word. -/
theorem setWidth_syscallRUnread (rs rt rd : Reg) :
    (syscallRUnread rs rt rd).setWidth 32 = if rs = 0#5 ∧ rt = 0#5 ∧ rd = 0#5 then 1#32 else 0#32 :=
  apply_ite (BitVec.setWidth 32) _ 1#5 0#5

/-- Bits 10 to 6 of `w` are as the encoder writes them for `i`; where `i` reads them, there is nothing to ask. -/
def UnreadAsEncoded (w : Word) : Instr → Prop
  | .add .. | .sub .. | .and .. | .or .. | .slt .. => (w >>> 6) &&& 0x1F#32 = 0#32
  | .syscallR rs rt rd => (w >>> 6) &&& 0x1F#32 = if rs = 0#5 ∧ rt = 0#5 ∧ rd = 0#5 then 1#32 else 0#32
  | .syscall | .j .. | .beq .. | .bne .. | .addiu .. | .andi .. | .ori .. | .lui .. | .lw .. | .sw .. => True

/-- Format `R`: the encoder writes every field back, and bits 10 to 6 of its own. -/
theorem encode_eq_self_iff_of_instrR {w : Word} {i : Instr} (ho : opcodeOf w = 0x00#6)
    (h : instrR (functTable (functOf w)) (rsOf w) (rtOf w) (rdOf w) = some i) :
    encode i = w ↔ UnreadAsEncoded w i := by
  have hoperation := encR_fields_eq_self_iff ho 0#5
  have hsyscall := encR_fields_eq_self_iff ho (syscallRUnread (rsOf w) (rtOf w) (rdOf w))
  rw [setWidth_syscallRUnread] at hsyscall
  generalize functOf w = f at h hoperation hsyscall
  rw [functTable] at h
  repeat' split at h
  all_goals cases h
  all_goals subst f
  exacts [hoperation, hoperation, hoperation, hoperation, hoperation, hsyscall]

/-- Format `I`: the encoder writes every field back, `lui`'s `rs` included. -/
theorem encode_eq_self_iff_of_instrI {w : Word} {i : Instr}
    (h : instrI (opcodeTable (opcodeOf w)) (rsOf w) (rtOf w) (immOf w) = some i) :
    encode i = w ↔ UnreadAsEncoded w i := by
  have hself := iff_true_intro (encI_fields w)
  generalize opcodeOf w = o at h hself
  rw [opcodeTable] at h
  repeat' split at h
  all_goals cases h
  all_goals
    subst o
    exact hself

theorem encode_eq_self_iff {w : Word} {i : Instr} (h : decodeWord w = some i) :
    encode i = w ↔ UnreadAsEncoded w i := by
  rw [decodeWord] at h
  rcases decode_cases w with ⟨rfl, hd⟩ | ⟨-, ho, hd⟩ | ⟨ho, hd⟩ | ⟨-, -, hd⟩ <;> rw [hd] at h
  · cases h
    exact iff_of_true rfl trivial
  · exact encode_eq_self_iff_of_instrR ho h
  · cases h
    exact iff_of_true (encJ_targetOf ho) trivial
  · exact encode_eq_self_iff_of_instrI h

/-- Settles O5: the decoder keeps every field but bits 10 to 6. -/
theorem encodeOfDecodeIsIdentityOnUnreadZero : Obligations.EncodeOfDecodeIsIdentityOnUnreadZero := by
  intro w i h
  have hiff := encode_eq_self_iff h
  cases i <;> exact hiff

/-- Settles O6. -/
theorem encodersAreShiftFormulas : Obligations.EncodersAreShiftFormulas :=
  ⟨encR_eq_shift_or, encI_eq_shift_or, encJ_eq_shift_or⟩

/-! ### Listed words (95_test_vectors.md) -/

/-- Settles O8, word by word. -/
theorem listedWordsDecode : Obligations.ListedWordsDecode := by
  unfold Obligations.ListedWordsDecode
  decide

/-! ### Bits that do not affect execution (R87, R100, R101) -/

/-- Every opcode-0 word of function code `0x0C` performs the service, in both of its forms. -/
theorem execWord_eq_service {w : Word} (ho : opcodeOf w = 0x00#6) (hf : functOf w = 0x0C#6) (s : Machine.State) :
    Machine.execWord w s = Machine.service s := by
  by_cases hw : w = syscallWord
  · exact Machine.execWord_of_instr (hw ▸ decodeWord_syscallWord) s
  · exact Machine.execWord_of_instr (decodeWord_syscallR hw ho hf) s

/-- Settles O10: `decode_encR` does not mention bits 10 to 6, `lui` does not read `rs`, and both forms of `syscall`
perform the service. -/
theorem unreadBitsDoNotAffectExecution : Obligations.UnreadBitsDoNotAffectExecution := by
  refine ⟨fun funct rs rt rd u hf => ?_, fun _ _ _ _ _ => rfl, fun w s ho hf => ?_⟩
  · have hne : funct ≠ 0x0C#6 := ne_of_mem_of_not_mem hf (by decide)
    exact (decode_encR hne rs rt rd u).trans (decode_encR hne rs rt rd 0#5).symm
  · obtain ⟨hop, hfunct⟩ := fields_syscallWord
    exact (execWord_eq_service ho hf s).trans (execWord_eq_service hop hfunct s).symm

end Sys2Proof

/-! PROOFS. What a service and an instruction may change (45_syscall.md R218, 10_state.md sections 1 to 6): one lemma
per part of the state, and the statements that are about one part each. -/

namespace Sys2Proof.Machine

/-! ### The service, part by part (R218) -/

/-- A print-string service only appends characters to `Out` and records a fault (R213). -/
theorem printString_eq (s : State) : ∃ (cs : List Word) (f : Option AddressFault),
    (∀ c ∈ cs, c ≠ 0#32) ∧ (∀ a, f = some a → a.wf s.params) ∧
      printString s = { s with out := s.out ++ cs.map .printChar, fault := f.or s.fault } :=
  ⟨_, _, scanString_ne_zero s _ _, fun _ h => (stringWalk_fault_wf h).2, printStringFrom_eq s _⟩

/-- Every way a service can answer a next state (R210 to R217): `service_cases` without the wait, and with what
print-string leaves written out. -/
theorem service_eq_next {s t : State} (h : service s = .next t) :
    (s.readReg codeReg = 1#32 ∧ t = s.emit (.printInt (s.readReg argReg).toInt)) ∨
    (s.readReg codeReg = 4#32 ∧ ∃ (cs : List Word) (f : Option AddressFault),
      (∀ c ∈ cs, c ≠ 0#32) ∧ (∀ a, f = some a → a.wf s.params) ∧
        t = { s with out := s.out ++ cs.map .printChar, fault := f.or s.fault }) ∨
    (s.readReg codeReg = 5#32 ∧ ∃ n rest, s.input = n :: rest ∧
      t = State.writeReg { s with input := rest } codeReg n) ∨
    (s.readReg codeReg = 10#32 ∧ t = s.halt) ∨
    (s.readReg codeReg ∉ [1#32, 4#32, 5#32, 10#32] ∧ t = s) := by
  rcases service_cases s with ⟨hcode, e⟩ | ⟨hcode, e⟩ | ⟨-, -, e⟩ | ⟨hcode, n, rest, hin, e⟩ | ⟨hcode, e⟩ | ⟨hcode, e⟩ <;>
    rw [e] at h <;> cases h
  · exact .inl ⟨hcode, rfl⟩
  · exact .inr (.inl ⟨hcode, printString_eq s⟩)
  · exact .inr (.inr (.inl ⟨hcode, n, rest, hin, rfl⟩))
  · exact .inr (.inr (.inr (.inl ⟨hcode, rfl⟩)))
  · exact .inr (.inr (.inr (.inr ⟨hcode, rfl⟩)))

section Service

variable {s t : State} (h : service s = .next t)
include h

/-- The one register a service writes is `x[2]`, for code 5. -/
theorem service_readReg {q : Reg} (hq : ¬(q = codeReg ∧ s.readReg codeReg = 5#32)) : t.readReg q = s.readReg q := by
  rcases service_eq_next h with ⟨-, rfl⟩ | ⟨-, cs, f, -, -, rfl⟩ | ⟨hcode, n, rest, -, rfl⟩ | ⟨-, rfl⟩ | ⟨-, rfl⟩
  case inr.inr.inl => exact State.readReg_writeReg_other _ n fun hqc => hq ⟨hqc, hcode⟩
  all_goals rfl

/-- `halted` is set by code 10, and by no other. -/
theorem service_halted : t.halted = true ↔ s.halted = true ∨ s.readReg codeReg = 10#32 := by
  rcases service_eq_next h with ⟨hcode, rfl⟩ | ⟨hcode, cs, f, -, -, rfl⟩ | ⟨hcode, n, rest, -, rfl⟩ | ⟨hcode, rfl⟩ |
    ⟨hcode, rfl⟩
  case inr.inr.inr.inl => exact iff_of_true rfl (.inr hcode)
  case inr.inr.inr.inr => exact (or_iff_left fun h10 => hcode (by simp [h10])).symm
  all_goals simp [hcode]

/-- Only code 4 records a fault. -/
theorem service_fault (hcode : s.readReg codeReg ≠ 4#32) : t.fault = s.fault := by
  rcases service_eq_next h with ⟨-, rfl⟩ | ⟨h4, -⟩ | ⟨-, n, rest, -, rfl⟩ | ⟨-, rfl⟩ | ⟨-, rfl⟩
  case inr.inl => exact absurd h4 hcode
  all_goals rfl

/-- Every service keeps the events behind it, and only codes 1 and 4 emit (R150). -/
theorem service_out : ∃ es, t.out = s.out ++ es ∧
    (s.readReg codeReg ≠ 1#32 → s.readReg codeReg ≠ 4#32 → es = []) := by
  rcases service_eq_next h with ⟨hcode, rfl⟩ | ⟨hcode, cs, f, -, -, rfl⟩ | ⟨-, n, rest, -, rfl⟩ | ⟨-, rfl⟩ | ⟨-, rfl⟩
  · exact ⟨_, rfl, fun h1 => absurd hcode h1⟩
  · exact ⟨_, rfl, fun _ h4 => absurd hcode h4⟩
  all_goals exact ⟨[], (List.append_nil _).symm, fun _ _ => rfl⟩

/-- Every service takes answers from the front of the input, and only code 5 takes one (R151). -/
theorem service_input : ∃ taken, s.input = taken ++ t.input ∧ (s.readReg codeReg ≠ 5#32 → taken = []) := by
  rcases service_eq_next h with ⟨-, rfl⟩ | ⟨-, cs, f, -, -, rfl⟩ | ⟨hcode, n, rest, hin, rfl⟩ | ⟨-, rfl⟩ | ⟨-, rfl⟩
  case inr.inr.inl => exact ⟨[n], hin, fun h5 => absurd hcode h5⟩
  all_goals exact ⟨[], rfl, fun _ => rfl⟩

end Service

/-! ### Frames, from the fields (R31, R33) -/

/-- A data read sees the data segment and the parameters, so equal fields make equal reads. -/
theorem SameFixed.of_fields {s t : State} (hparams : t.params = s.params) (himem : t.imem = s.imem)
    (hdata : t.data = s.data) : SameFixed s t :=
  ⟨hparams, himem, hdata, fun k => by rw [State.dataRead, State.dataRead, hparams, hdata]⟩

/-- A stack read sees the stack segment and the parameters, so equal fields make equal reads. -/
theorem SameStack.of_fields {s t : State} (hparams : t.params = s.params) (hstack : t.stack = s.stack) :
    SameStack s t :=
  ⟨hstack, fun a => by rw [State.memRead, State.memRead, hparams, hstack]⟩

/-- Settles O33: `service_keeps` and the lemma of each part. -/
theorem syscallFrameBySummary : Obligations.SyscallFrameBySummary := by
  intro s t i hi hexec
  rw [exec_of_isSyscall hi] at hexec
  obtain ⟨hparams, himem, hdata, hstack, hpc⟩ := service_keeps hexec
  obtain ⟨es, hout, hes⟩ := service_out hexec
  obtain ⟨taken, hin, htaken⟩ := service_input hexec
  refine ⟨.of_fields hparams himem hdata, .of_fields hparams hstack, hpc,
    fun q hq => service_readReg hexec fun hqc => hq hqc.1,
    fun h5 => ⟨fun q => service_readReg hexec fun hqc => h5 hqc.2, ?_⟩,
    fun h10 => ?_, service_fault hexec, fun h1 h4 => ?_⟩
  · rw [hin, htaken h5, List.nil_append]
  · rw [Bool.eq_iff_iff, service_halted hexec, or_iff_left h10]
  · rw [hout, hes h1 h4, List.append_nil]

/-! ### Read integer (R215) -/

theorem service_of_code_readInteger {s : State} (h : s.readReg codeReg = 5#32) : service s = readInteger s := by
  simp [service, h]

/-- A request with no answer waits (R151). -/
theorem service_awaits {s : State} (hcode : s.readReg codeReg = 5#32) (hin : s.input = []) :
    service s = .fault .awaitingInput := by
  rw [service_of_code_readInteger hcode, readInteger, State.readInt, hin]

/-- Settles O29: the answer is written to `x[2]`, which is not register 0. -/
theorem readIntegerTakesAnswer : Obligations.ReadIntegerTakesAnswer := by
  intro s i hi hcode
  rw [exec_of_isSyscall hi]
  refine ⟨fun n rest hin => ?_, service_awaits hcode⟩
  have hservice : service s = .next (State.writeReg { s with input := rest } codeReg n) := by
    rw [service_of_code_readInteger hcode, readInteger, State.readInt, hin]
  refine ⟨_, hservice, ?_, rfl, fun q hq => State.readReg_writeReg_other _ n hq, rfl, ⟨rfl, rfl, rfl, fun _ => rfl⟩,
    ⟨rfl, fun _ => rfl⟩, rfl, rfl, rfl⟩
  rw [State.readReg_writeReg, if_pos rfl, if_neg (by simp [codeReg])]

/-! ### An instruction, part by part (R22, R28, R152) -/

theorem not_isSyscall_of_destination {i : Instr} {r : Reg} (h : destination i = some r) : ¬ IsSyscall i := by
  rintro (rfl | ⟨_, _, _, rfl⟩) <;> exact nomatch h

/-- No instruction changes the parameters, the program or the data segment (R31, R33). -/
theorem exec_sameFixed {i : Instr} {s t : State} (h : exec i s = .next t) : SameFixed s t := by
  rcases exec_cases h with ⟨_, _, rfl, -⟩ | ⟨_, rfl, -⟩ | ⟨rfl, -⟩ | ⟨_, rfl, -⟩ | ⟨_, _, _, _, -, -, -, -, rfl⟩ |
    ⟨-, hservice⟩
  case inr.inr.inr.inr.inr =>
    obtain ⟨hparams, himem, hdata, -⟩ := service_keeps hservice
    exact .of_fields hparams himem hdata
  all_goals exact ⟨rfl, rfl, rfl, fun _ => rfl⟩

/-- Only `syscall` touches `halted`, the events and the input (R28, R37, R38). -/
theorem exec_of_not_isSyscall {i : Instr} {s t : State} (hi : ¬ IsSyscall i) (h : exec i s = .next t) :
    t.halted = s.halted ∧ t.out = s.out ∧ t.input = s.input := by
  rcases exec_cases h with ⟨_, _, rfl, -⟩ | ⟨_, rfl, -⟩ | ⟨rfl, -⟩ | ⟨_, rfl, -⟩ | ⟨_, _, _, _, -, -, -, -, rfl⟩ |
    ⟨hsyscall, -⟩
  case inr.inr.inr.inr.inr => exact absurd hsyscall hi
  all_goals exact ⟨rfl, rfl, rfl⟩

/-- `halted` is set by a `syscall` with code 10, and by nothing else (R28). -/
theorem exec_halted {i : Instr} {s t : State} (h : exec i s = .next t) :
    t.halted = true ↔ s.halted = true ∨ (IsSyscall i ∧ s.readReg codeReg = 10#32) := by
  by_cases hi : IsSyscall i
  · rw [service_halted ((exec_of_isSyscall hi s).symm.trans h), and_iff_right hi]
  · obtain ⟨hhalted, -⟩ := exec_of_not_isSyscall hi h
    simp [hhalted, hi]

/-- Events are appended, and answers taken from the front (R150). -/
theorem exec_out_input {i : Instr} {s t : State} (h : exec i s = .next t) :
    (∃ es, t.out = s.out ++ es) ∧ ∃ taken, s.input = taken ++ t.input := by
  by_cases hi : IsSyscall i
  · have hservice := (exec_of_isSyscall hi s).symm.trans h
    obtain ⟨es, hout, -⟩ := service_out hservice
    obtain ⟨taken, hin, -⟩ := service_input hservice
    exact ⟨⟨es, hout⟩, taken, hin⟩
  · obtain ⟨-, hout, hin⟩ := exec_of_not_isSyscall hi h
    exact ⟨⟨[], by rw [hout, List.append_nil]⟩, [], hin.symm⟩

/-- Settles O55: a register write is of the instruction's destination, and a service writes `x[2]` for code 5 only. -/
theorem registersWrittenByTable : Obligations.RegistersWrittenByTable := by
  intro i s t h q hq
  obtain ⟨hdest, hcode⟩ := not_or.1 hq
  rcases exec_cases h with ⟨r, v, rfl, hr⟩ | ⟨_, rfl, -⟩ | ⟨rfl, -⟩ | ⟨_, rfl, -⟩ | ⟨_, _, _, _, -, -, -, -, rfl⟩ |
    ⟨hi, hservice⟩
  case inl => exact State.readReg_writeReg_other s v fun hqr => hdest (hqr ▸ hr)
  case inr.inr.inr.inr.inr => exact service_readReg hservice fun ⟨hq2, h5⟩ => hcode ⟨hi, hq2, h5⟩
  all_goals rfl

/-- A service with an answer to take, or with another code, answers a next state (R152). -/
theorem service_completes {s : State} (h : ¬(s.readReg codeReg = 5#32 ∧ s.input = [])) : ∃ t, service s = .next t := by
  rcases service_cases s with ⟨-, e⟩ | ⟨-, e⟩ | ⟨hcode, hin, -⟩ | ⟨-, _, _, -, e⟩ | ⟨-, e⟩ | ⟨-, e⟩
  case inr.inr.inl => exact absurd ⟨hcode, hin⟩ h
  all_goals exact ⟨_, e⟩

/-- Settles O53: every instruction but `syscall` answers a next state, and a service waits in one case only. -/
theorem onlyUnansweredReadStops : Obligations.OnlyUnansweredReadStops := by
  refine fun i s => ⟨fun h => ?_, fun hi hcode hin => (exec_of_isSyscall hi s).trans (service_awaits hcode hin)⟩
  cases i with
  | syscall => exact service_completes fun hwait => h ⟨.inl rfl, hwait⟩
  | syscallR rs rt rd => exact service_completes fun hwait => h ⟨.inr ⟨rs, rt, rd, rfl⟩, hwait⟩
  | lw rs rt imm => exact ⟨_, exec_lw_eq s rs rt imm rfl⟩
  | sw rs rt imm => exact ⟨_, exec_sw_eq s rs rt imm rfl⟩
  | _ => exact ⟨_, rfl⟩

/-! ### A step, part by part (R141) -/

/-- No step changes the parameters, the program or the data segment (R31, R33). -/
theorem step_sameFixed {s t : State} (h : step s = .next t) : SameFixed s t := by
  obtain ⟨w, -, -, hexec⟩ := step_eq_next h
  rcases execWord_eq_next hexec with ⟨i, -, hx⟩ | ⟨-, rfl⟩
  · obtain ⟨hparams, himem, hdata, -⟩ := exec_sameFixed hx
    exact .of_fields hparams himem hdata
  · exact ⟨rfl, rfl, rfl, fun _ => rfl⟩

/-- Settles O56: register 0 is hardwired in the state before and, the parameters being kept, in the state after. -/
theorem zeroRegisterReadsZero : Obligations.ZeroRegisterReadsZero := by
  intro s hz
  have hread : ∀ t : State, t.params.zeroHardwired = true → t.readReg 0#5 = 0#32 := fun t ht =>
    t.readReg_hardZero ((t.hardZero_iff 0#5).2 ⟨ht, rfl⟩)
  refine ⟨hread s hz, fun t hstep => ?_⟩
  have ht : t.params.zeroHardwired = true := (step_sameFixed hstep).params ▸ hz
  exact ⟨ht, hread t ht⟩

/-- Settles O52: an instruction appends and takes from the front, and the report of an unknown word appends one event. -/
theorem outputGrowsAndInputShrinks : Obligations.OutputGrowsAndInputShrinks := by
  intro s t h
  obtain ⟨w, -, -, hexec⟩ := step_eq_next h
  rcases execWord_eq_next hexec with ⟨i, -, hx⟩ | ⟨-, rfl⟩
  · exact exec_out_input (s := s.advance) hx
  · exact ⟨⟨_, rfl⟩, [], rfl⟩

/-- Settles O50: a state that takes a step is not halted, and its fetched word is the one executed. -/
theorem onlyTerminateHalts : Obligations.OnlyTerminateHalts := by
  intro s t h
  obtain ⟨w, ⟨-, hrun, -⟩, hw, hexec⟩ := step_eq_next h
  have hstart : ¬ s.advance.halted = true := by simp [hrun]
  rcases execWord_eq_next hexec with ⟨i, hi, hx⟩ | ⟨hnone, rfl⟩
  · rw [exec_halted hx, or_iff_right hstart]
    refine ⟨fun ⟨hsyscall, h10⟩ => ⟨w, i, hw, hi, hsyscall, h10⟩, fun ⟨w', i', hw', hi', hsyscall, h10⟩ => ?_⟩
    obtain rfl : w = w' := Option.some.inj (hw.symm.trans hw')
    obtain rfl : i = i' := Option.some.inj (hi.symm.trans hi')
    exact ⟨hsyscall, h10⟩
  · refine iff_of_false hstart fun ⟨w', i', hw', hi', _⟩ => ?_
    obtain rfl : w = w' := Option.some.inj (hw.symm.trans hw')
    exact nomatch hnone.symm.trans hi'

end Sys2Proof.Machine

/-! PROOFS. Launches, the invariant and whole runs (10_state.md section 7, 41_engine.md sections 3 and 4): which launches
are accepted, the invariant kept by each update, and what a run does from its first state to its last. -/

namespace Sys2Proof.Machine

/-! ### Launches (R36, R40, R41) -/

theorem State.launch_ne_fault (l : Launch) (f : Fault) : State.launch l ≠ .fault f := by
  unfold State.launch
  split_ifs <;> exact nofun

/-- Settles O40: a launch is accepted in the contract and nowhere else, and what is not accepted is refused. -/
theorem launchOutOfContractIsRefused : Obligations.LaunchOutOfContractIsRefused := by
  intro l
  constructor
  · rintro ⟨r, hr⟩ ⟨hw, hp, hd⟩
    obtain ⟨s, hs⟩ := State.launch_accepts hw hp hd
    exact nomatch hs.symm.trans hr
  · intro hout
    cases hl : State.launch l with
    | next s =>
      obtain ⟨hw, hp, hd, -⟩ := State.launch_eq_next hl
      exact absurd ⟨hw, hp, hd⟩ hout
    | fault f => exact absurd hl (State.launch_ne_fault l f)
    | refused r => exact ⟨r, rfl⟩

/-- Settles O41: both sides are closed terms, so the launch is evaluated. -/
theorem resetIsOneLaunch : Obligations.ResetIsOneLaunch := by
  unfold Obligations.ResetIsOneLaunch
  rfl

/-! ### The invariant at the start of a run -/

/-- Settles O43: both segments are filled, and registers 0 and 29 are set last. -/
theorem launchMeetsInvariant : Obligations.LaunchMeetsInvariant := by
  intro l s h
  obtain ⟨hw, hp, -, hparams, hregs, -, himem, hdata, hstack, hhalted, hfault, hout, -⟩ := State.launch_eq_next h
  constructor
  case params_wf => rwa [hparams]
  case program_fits => rwa [himem, hparams]
  case data_wf => rw [hdata]; exact Memory.fill_wf _ _ _
  case data_within => rw [hdata, hparams]; exact Memory.fill_within _ _
  case stack_wf => rw [hstack]; exact Memory.fill_wf _ _ _
  case stack_within => rw [hstack, hparams]; exact Memory.fill_within _ _
  case zero_reg => intro _; rw [hregs]; exact Launch.regs_get l 0 (by decide)
  case one_end => exact fun _ => hfault
  case fault_wf => simp [hfault]
  case events_wf => simp [hout]

/-- Settles O42: `State.reset` is a launch. -/
theorem resetMeetsInvariant : Obligations.ResetMeetsInvariant := launchMeetsInvariant _ _ resetIsOneLaunch

/-! ### The invariant, update by update -/

namespace State.Inv

variable {s : State}

theorem setPc (h : s.Inv) (p : Int) : (s.setPc p).Inv := { h with }

theorem advance (h : s.Inv) : s.advance.Inv := { h with }

theorem takeInput (h : s.Inv) (rest : List Word) : State.Inv { s with input := rest } := { h with }

theorem emitAll (h : s.Inv) {es : List Event} (hes : ∀ e ∈ es, e.wf) : (s.emitAll es).Inv :=
  { h with events_wf := fun e he => (List.mem_append.1 he).elim (h.events_wf e) (hes e) }

theorem halt (h : s.Inv) (hf : s.fault = none) : s.halt.Inv := { h with one_end := fun _ => hf }

theorem raise (h : s.Inv) (hh : s.halted = false) {f : AddressFault} (hf : f.wf s.params) : (s.raise f).Inv :=
  { h with
    one_end := fun ht => nomatch hh.symm.trans ht
    fault_wf := fun _ hg => Option.some.inj hg ▸ hf }

/-- A register write leaves register 0 alone where it is hardwired: a write to it is discarded (R23). -/
theorem writeReg (h : s.Inv) (r : Reg) (v : Word) : (s.writeReg r v).Inv := by
  refine { h with zero_reg := fun hz => ?_ }
  by_cases hr : s.hardZero r = true
  · rw [s.writeReg_hardZero hr]
    exact h.zero_reg hz
  · have hne : r.toNat ≠ 0 := fun h0 => hr ((s.hardZero_iff r).2 ⟨hz, BitVec.eq_of_toNat_eq h0⟩)
    simp only [State.writeReg, State.regsAfterWrite, if_neg hr, Vector.getElem_set_ne _ _ hne]
    exact h.zero_reg hz

/-- A store in range keeps the stack canonical and within its capacity (R53). -/
theorem writeStack (h : s.Inv) {k : Nat} (hk : k < s.params.stackCap) (v : Word) :
    State.Inv { s with stack := s.stack.write k v } :=
  { h with
    stack_wf := Memory.write_wf h.stack_wf k v
    stack_within := Memory.write_within h.stack_within v hk }

end State.Inv

/-! ### The invariant, instruction by instruction -/

/-- `toS32` lies in the range of R37. -/
theorem wf_printInt (v : Word) : (Event.printInt v.toInt).wf := ⟨BitVec.le_toInt v, BitVec.toInt_lt⟩

theorem wf_printChars {cs : List Word} (h : ∀ c ∈ cs, c ≠ 0#32) : ∀ e ∈ cs.map Event.printChar, e.wf := by
  simpa [Event.wf] using h

/-- A service keeps the invariant in a state where the run has not ended. -/
theorem service_inv {s t : State} (h : s.Inv) (hh : s.halted = false) (hf : s.fault = none)
    (hs : service s = .next t) : t.Inv := by
  rcases service_eq_next hs with ⟨-, rfl⟩ | ⟨-, cs, f, hcs, hfault, rfl⟩ | ⟨-, n, rest, -, rfl⟩ | ⟨-, rfl⟩ | ⟨-, rfl⟩
  · exact h.emitAll (by simpa using wf_printInt _)
  · have hprinted := h.emitAll (wf_printChars hcs)
    cases f with
    | none => exact hprinted
    | some a => exact hprinted.raise hh (hfault a rfl)
  · exact (h.takeInput rest).writeReg codeReg n
  · exact h.halt hf
  · exact h

/-- An instruction keeps the invariant in a state where the run has not ended. -/
theorem exec_inv {i : Instr} {s t : State} (h : s.Inv) (hh : s.halted = false) (hf : s.fault = none)
    (hx : exec i s = .next t) : t.Inv := by
  rcases exec_cases hx with ⟨r, v, rfl, -⟩ | ⟨p, rfl, -⟩ | ⟨rfl, -⟩ | ⟨a, rfl, hout, -⟩ |
    ⟨rs, rt, imm, a, -, -, h0, hcap, rfl⟩ | ⟨-, hs⟩
  · exact h.writeReg r v
  · exact h.setPc p
  · exact h
  · exact h.raise hh (AddressFault.wf_iff.2 hout)
  · exact h.writeStack (by omega) _
  · exact service_inv h hh hf hs

/-- Settles O45: a state that takes a step has neither `halted` nor `fault`, so each update keeps the invariant. -/
theorem stepKeepsInvariant : Obligations.StepKeepsInvariant := by
  intro s t h hstep
  obtain ⟨w, ⟨-, hh, hf⟩, -, hexec⟩ := step_eq_next hstep
  rcases execWord_eq_next hexec with ⟨i, -, hx⟩ | ⟨hnone, rfl⟩
  · exact exec_inv h.advance hh hf hx
  · exact h.advance.emitAll (by simpa [Event.wf] using hnone)

/-! ### Runs (R146, R147, R153) -/

/-- What holds of the first state and is kept by every step holds of the last state of a run. -/
theorem run_last_induction {P : State → Prop} (hstep : ∀ s t, P s → step s = .next t → P t) (fuel : Nat) {s : State}
    (hs : P s) : P (run fuel s).last := by
  induction fuel generalizing s with
  | zero => exact hs
  | succ fuel ih =>
    rw [run]
    split
    · next t ht => exact ih (hstep s t hs ht)
    all_goals exact hs

/-- Settles O44: the launch meets the invariant and every step keeps it. -/
theorem runFromLaunchKeepsInvariant : Obligations.RunFromLaunchKeepsInvariant :=
  fun l s fuel h => run_last_induction stepKeepsInvariant fuel (launchMeetsInvariant l s h)

/-- A run that ends makes at least one pass: it stops at once, or steps and ends later. -/
theorem run_succ_eq_ended {fuel : Nat} {s last : State} {o : RunOutcome} (h : run (fuel + 1) s = .ended o last) :
    (last = s ∧ step s = .fault (.runEnded o)) ∨ ∃ t, step s = .next t ∧ run fuel t = .ended o last := by
  rw [run] at h
  split at h
  · next t ht => exact .inr ⟨t, ht, h⟩
  · next o' ho =>
    cases h
    exact .inl ⟨rfl, ho⟩
  all_goals exact nomatch h

/-- A run takes a step where there is one to take. -/
theorem run_of_next {s t : State} (h : step s = .next t) (fuel : Nat) : run (fuel + 1) s = run fuel t := by
  rw [run, h]

/-- The last state of a run that has ended is one whose step reports the outcome. -/
theorem step_of_run_ended {fuel : Nat} {s last : State} {o : RunOutcome} (h : run fuel s = .ended o last) :
    step last = .fault (.runEnded o) := by
  induction fuel generalizing s with
  | zero => exact nomatch h
  | succ fuel ih =>
    rcases run_succ_eq_ended h with ⟨rfl, hend⟩ | ⟨t, -, hrun⟩
    · exact hend
    · exact ih hrun

/-- More fuel leads to the same end. -/
theorem run_ended_add {fuel : Nat} {s last : State} {o : RunOutcome} (h : run fuel s = .ended o last) (more : Nat) :
    run (fuel + more) s = .ended o last := by
  induction fuel generalizing s with
  | zero => exact nomatch h
  | succ fuel ih =>
    rw [Nat.succ_add]
    rcases run_succ_eq_ended h with ⟨rfl, hend⟩ | ⟨t, ht, hrun⟩
    · exact run_of_ended hend _
    · exact (run_of_next ht _).trans (ih hrun)

/-- `last` comes after `first` in a run: what no step changes is the same, events were appended and answers taken from
the front (R31, R33, R150). -/
structure Follows (first last : State) : Prop where
  params : last.params = first.params
  imem : last.imem = first.imem
  data : last.data = first.data
  out : ∃ es, last.out = first.out ++ es
  input : ∃ taken, first.input = taken ++ last.input

theorem Follows.refl (s : State) : Follows s s := ⟨rfl, rfl, rfl, ⟨[], (List.append_nil _).symm⟩, [], rfl⟩

theorem Follows.step {first s t : State} (h : Follows first s) (hstep : step s = .next t) : Follows first t := by
  obtain ⟨hparams, himem, hdata, -⟩ := step_sameFixed hstep
  obtain ⟨⟨es', hout'⟩, taken', hin'⟩ := outputGrowsAndInputShrinks s t hstep
  obtain ⟨es, hout⟩ := h.out
  obtain ⟨taken, hin⟩ := h.input
  exact ⟨hparams.trans h.params, himem.trans h.imem, hdata.trans h.data,
    ⟨es ++ es', by rw [hout', hout, List.append_assoc]⟩, taken ++ taken', by rw [hin, hin', List.append_assoc]⟩

/-- The last state of a run follows the first. -/
theorem follows_run_last (fuel : Nat) (s : State) : Follows s (run fuel s).last :=
  run_last_induction (fun _ _ => Follows.step) fuel (Follows.refl s)

/-- Settles O57: the last state's step reports the outcome by R146's cases, and the last state follows the first. -/
theorem runEndsWhereLoopConditionFails : Obligations.RunEndsWhereLoopConditionFails := by
  intro fuel more s last o h
  have hfollows : Follows s last := by simpa [h, RunResult.last] using follows_run_last fuel s
  obtain ⟨hparams, himem, hdata, hout, hin⟩ := hfollows
  refine ⟨?_, run_ended_add h more, hparams, himem, hdata, hout, hin⟩
  rcases State.nextWord_eq_error.1 (step_eq_runEnded.1 (step_of_run_ended h)) with
    ⟨hh, rfl⟩ | ⟨hh, c, hc, rfl⟩ | ⟨hh, hf, hpc, rfl⟩
  · exact hh
  · exact ⟨hh, hc⟩
  · have hrange : last.pc < 0 ∨ last.imem.length ≤ last.pc := by
      rcases not_and_or.1 hpc with hlow | hhigh
      · exact .inl (Int.not_le.1 hlow)
      · exact .inr (Int.not_lt.1 hhigh)
    exact ⟨hh, hf, hrange⟩

/-- The last state of a run that has ended is the first one, or the next state of one that the run passes. -/
theorem run_ended_last_step {fuel : Nat} {s last : State} {o : RunOutcome} (h : run fuel s = .ended o last) :
    last = s ∨ ∃ n before, run n s = .unfinished before ∧ step before = .next last := by
  induction fuel generalizing s with
  | zero => exact nomatch h
  | succ fuel ih =>
    rcases run_succ_eq_ended h with ⟨rfl, -⟩ | ⟨t, ht, hrun⟩
    · exact .inl rfl
    · rcases ih hrun with rfl | ⟨n, before, hbefore, hlast⟩
      · exact .inr ⟨0, s, rfl, ht⟩
      · exact .inr ⟨n + 1, before, (run_of_next ht n).trans hbefore, hlast⟩

/-- Settles O59: a launch is not halted and the last state is, so there is a last step, and only the terminate service
sets `halted`. -/
theorem successComesFromTerminateOnly : Obligations.SuccessComesFromTerminateOnly := by
  intro l s last fuel hl hrun
  obtain ⟨-, -, -, -, -, -, -, -, -, hstart, -⟩ := State.launch_eq_next hl
  obtain ⟨hhalted, -⟩ := runEndsWhereLoopConditionFails fuel 0 s last .success hrun
  rcases run_ended_last_step hrun with rfl | ⟨n, before, hbefore, hstep⟩
  · exact nomatch hstart.symm.trans hhalted
  · obtain ⟨w, i, hw, hi, hsyscall, hcode⟩ := (onlyTerminateHalts before last hstep).1 hhalted
    exact ⟨n, before, w, i, hbefore, hstep, hw, hi, hsyscall, hcode⟩

/-! ### The model's loader -/

/-- Where `pc` is no negative index and finds a word, it addresses a loaded instruction. -/
theorem State.pcLoaded_of_getElem? {s : State} {w : Word} (h0 : 0 ≤ s.pc) (hw : s.imem[s.pc.toNat]? = some w) :
    s.pcLoaded := by
  obtain ⟨hlt, -⟩ := List.getElem?_eq_some_iff.1 hw
  exact ⟨h0, by omega⟩

/-- The loader leaves the word where the next step fetches. -/
theorem State.imem_withFetchWord (s : State) (w : Word) :
    (s.withFetchWord 32 w.toNat).imem[(s.withFetchWord 32 w.toNat).pc.toNat]? = some w := by
  have hword : BitVec.ofNat 32 (w.toNat % 2 ^ 32) = w := by
    rw [Nat.mod_eq_of_lt w.isLt, BitVec.ofNat_toNat, BitVec.setWidth_eq]
  simp only [State.withFetchWord, Int.toNat_natCast, placeWord_get, hword]

/-- Settles O37: the loader undoes what keeps the loop from fetching, and the word is where `pc` points. -/
theorem placedWordRunsNext : Obligations.PlacedWordRunsNext := by
  intro s w
  have hplaced := s.imem_withFetchWord w
  have hpc : 0 ≤ (s.withFetchWord 32 w.toNat).pc := Int.natCast_nonneg _
  exact step_of_running ⟨State.pcLoaded_of_getElem? hpc hplaced, rfl, rfl⟩ hplaced

end Sys2Proof.Machine

/-! PROOFS. Single-agent memory, the jump at the default `TEXT_BASE`, and what no instruction but the ones named reads:
the data segment and the stack segment (20_memory.md, 43_control_transfer.md section 2, 10_state.md section 4). -/

namespace Sys2Proof.Machine

/-! ### A stack read after a write (R62) -/

/-- After a write to a cell in range, its address reads the word written. -/
theorem State.memRead_write_same {s : State} (hstack : s.stack.wf) {a : Int} (h₀ : 0 ≤ stackIndex a)
    (h₁ : stackIndex a < s.params.stackCap) (v : Word) :
    State.memRead { s with stack := s.stack.write (stackIndex a).toNat v } a = .ok v := by
  rw [State.memRead, if_pos ⟨h₀, h₁⟩, Memory.read_write_same hstack]

/-- Settles O26: a write that succeeds is in range, and different addresses name different cells. -/
theorem stackReadSeesLastWrite : Obligations.StackReadSeesLastWrite := by
  intro s s' a v hstack h
  rcases s.memWrite_cases a v with ⟨h₀, h₁, hwrite⟩ | ⟨-, hwrite⟩ <;> rw [hwrite] at h <;> cases h
  refine ⟨Memory.write_wf hstack _ v, fun b => ?_⟩
  by_cases hb : b = a
  · subst hb
    rw [if_pos rfl, State.memRead_write_same hstack h₀ h₁]
  · rw [if_neg hb, s.memRead_write_other v h₀ hb]

/-! ### The jump at the default `TEXT_BASE` (R193, D1) -/

/-- Below `2^28` the top four bits of `A` are zero, so `T` is four times the target. -/
theorem jumpTarget_of_low_byteAddress {textBase : Nat} {pc : Int} (haligned : 4 ∣ textBase)
    (h0 : 0 ≤ textBase + 4 * pc) (hlow : textBase + 4 * pc < 2 ^ 28) (target : Target26) :
    textBase + 4 * jumpTarget textBase pc target = 4 * target.toNat := by
  have hT := textBase_add_four_mul_jumpTarget haligned pc target
  omega

/-- Settles O23: the byte address of every index up to `PROG_CAP` lies below `2^28`. -/
theorem jumpWithDefaultTextBase : Obligations.JumpWithDefaultTextBase := by
  intro s target hbase hcap h0 hpc
  have hT : (0x00400000 : Nat) + 4 * jumpTarget 0x00400000 s.pc target = 4 * target.toNat :=
    jumpTarget_of_low_byteAddress (by decide) (by omega) (by omega) target
  have hjump : (target.toNat - 0x00100000 : Int) = jumpTarget s.params.textBase s.pc target := by
    rw [hbase]
    omega
  rw [hjump]
  exact setsPc_setPc s _

/-! ### A part of the state that an instruction does not read -/

/-- A change of the state that touches neither what an instruction reads nor what it writes, the two segments aside. -/
structure Hidden (f : State → State) : Prop where
  params (s : State) : (f s).params = s.params
  pc (s : State) : (f s).pc = s.pc
  input (s : State) : (f s).input = s.input
  readReg (s : State) (q : Reg) : (f s).readReg q = s.readReg q
  writeReg (s : State) (r : Reg) (v : Word) : (f s).writeReg r v = f (s.writeReg r v)
  setPc (s : State) (p : Int) : (f s).setPc p = f (s.setPc p)
  emitAll (s : State) (es : List Event) : (f s).emitAll es = f (s.emitAll es)
  halt (s : State) : (f s).halt = f s.halt
  raise (s : State) (a : AddressFault) : (f s).raise a = f (s.raise a)
  takeInput (s : State) (rest : List Word) : { f s with input := rest } = f { s with input := rest }

section Hidden

variable {f : State → State} (hf : Hidden f)
include hf

theorem readInteger_hidden (s : State) : readInteger (f s) = mapNext f (readInteger s) := by
  simp only [readInteger, State.readInt, hf.input]
  cases s.input with
  | nil => rfl
  | cons n rest => exact congrArg Host.Outcome.next (by rw [hf.takeInput, hf.writeReg])

/-- A service that is not print-string does the same under the change. -/
theorem service_hidden {s : State}
    (hprint : s.readReg codeReg = 4#32 → printString (f s) = f (printString s)) :
    service (f s) = mapNext f (service s) := by
  by_cases h4 : s.readReg codeReg = 4#32
  · rw [service_of_code_printString h4, service_of_code_printString ((hf.readReg s codeReg).trans h4), hprint h4]
    rfl
  · simp only [service, hf.readReg, if_neg h4, readInteger_hidden hf, printInteger, State.emit, hf.emitAll, hf.halt]
    split_ifs <;> rfl

/-- Every instruction that reaches neither segment does the same under the change. -/
theorem exec_hidden {i : Instr} {s : State} (hlw : ∀ rs rt imm, i ≠ .lw rs rt imm)
    (hsw : ∀ rs rt imm, i ≠ .sw rs rt imm)
    (hprint : IsSyscall i → s.readReg codeReg = 4#32 → printString (f s) = f (printString s)) :
    exec i (f s) = mapNext f (exec i s) := by
  cases i with
  | lw rs rt imm => exact absurd rfl (hlw rs rt imm)
  | sw rs rt imm => exact absurd rfl (hsw rs rt imm)
  | syscall => exact service_hidden hf (hprint (.inl rfl))
  | syscallR rs rt rd => exact service_hidden hf (hprint (.inr ⟨rs, rt, rd, rfl⟩))
  | j target => exact congrArg Host.Outcome.next (by rw [hf.setPc, hf.params, hf.pc])
  | beq rs rt imm | bne rs rt imm =>
    refine congrArg Host.Outcome.next ?_
    rw [hf.readReg, hf.readReg, hf.setPc, hf.pc]
    exact (apply_ite f _ _ _).symm
  | add rs rt rd | sub rs rt rd | and rs rt rd | or rs rt rd | slt rs rt rd =>
    exact congrArg Host.Outcome.next (by rw [hf.readReg, hf.readReg, hf.writeReg])
  | addiu rs rt imm | andi rs rt imm | ori rs rt imm =>
    exact congrArg Host.Outcome.next (by rw [hf.readReg, hf.writeReg])
  | lui rs rt imm => exact congrArg Host.Outcome.next (hf.writeReg s rt _)

end Hidden

/-! ### The data segment (R33, R35, R204) -/

/-- `s` with another data segment in its place. -/
def State.withData (d : Memory) (s : State) : State := { s with data := d }

theorem hidden_withData (d : Memory) : Hidden (State.withData d) := by
  constructor <;> intros <;> rfl

theorem State.memRead_withData (s : State) (d : Memory) (a : Int) : (s.withData d).memRead a = s.memRead a := rfl

theorem State.memWrite_withData (s : State) (d : Memory) (a : Int) (v : Word) :
    (s.withData d).memWrite a v = (s.memWrite a v).map (State.withData d) := by
  rw [State.memWrite, State.memWrite, apply_ite (Except.map _)]
  rfl

/-- Every instruction but a print-string `syscall` does the same whatever the data segment holds. -/
theorem exec_withData {i : Instr} {s : State} (h : ¬(IsSyscall i ∧ s.readReg codeReg = 4#32)) (d : Memory) :
    exec i (s.withData d) = mapNext (State.withData d) (exec i s) := by
  cases i with
  | lw rs rt imm =>
    simp only [exec, execLw, (hidden_withData d).readReg, State.memRead_withData]
    split <;> rfl
  | sw rs rt imm =>
    simp only [exec, execSw, (hidden_withData d).readReg, State.memWrite_withData]
    cases s.memWrite (effectiveAddress (s.readReg rs) imm) (s.readReg rt) <;> rfl
  | _ => exact exec_hidden (hidden_withData d) nofun nofun fun hi h4 => absurd ⟨hi, h4⟩ h

/-- Settles O47: no step changes the data segment, and `exec` commutes with a change of it. -/
theorem dataIsReadByPrintStringOnly : Obligations.DataIsReadByPrintStringOnly :=
  ⟨fun _ _ h => (step_sameFixed h).data,
    fun _ _ _ d hi h => (exec_withData hi d).trans (congrArg (mapNext (State.withData d)) h)⟩

/-! ### The stack segment (R50) -/

/-- `s` with another stack segment in its place. -/
def State.withStack (m : Memory) (s : State) : State := { s with stack := m }

theorem hidden_withStack (m : Memory) : Hidden (State.withStack m) := by
  constructor <;> intros <;> rfl

/-- The print-string service walks the data segment, and no other. -/
theorem printString_withStack (s : State) (m : Memory) : printString (s.withStack m) = (printString s).withStack m := by
  have hscan : ∀ n k, scanString (s.withStack m) n k = scanString s n k := scanString_congr fun _ => rfl
  simp only [printString, printStringFrom_eq, hscan]
  rfl

/-- Every instruction but `sw` leaves the stack segment. -/
theorem exec_sameStack {i : Instr} {s t : State} (hsw : ∀ rs rt imm, i ≠ .sw rs rt imm) (h : exec i s = .next t) :
    SameStack s t := by
  rcases exec_cases h with ⟨_, _, rfl, -⟩ | ⟨_, rfl, -⟩ | ⟨rfl, -⟩ | ⟨_, rfl, -⟩ |
    ⟨rs, rt, imm, -, hi, -⟩ | ⟨-, hservice⟩
  case inr.inr.inr.inr.inl => exact absurd hi (hsw rs rt imm)
  case inr.inr.inr.inr.inr =>
    obtain ⟨hparams, -, -, hstack, -⟩ := service_keeps hservice
    exact .of_fields hparams hstack
  all_goals exact ⟨rfl, fun _ => rfl⟩

/-- Settles O48: only `sw` changes the stack segment, and `exec` commutes with a change of it but for `lw` and `sw`. -/
theorem stackIsReachedByLoadStoreOnly : Obligations.StackIsReachedByLoadStoreOnly := by
  intro i s t m hlw hsw h
  have hexec := exec_hidden (hidden_withStack m) hlw hsw fun _ _ => printString_withStack s m
  exact ⟨exec_sameStack hsw h, hexec.trans (congrArg (mapNext (State.withStack m)) h)⟩

end Sys2Proof.Machine
